-- ==== Sys2Proof/Word.lean ====
section
/-! DEFINITION. The machine's words: the byte of a register or memory location, the 16-bit word of an opcode,
`pc`, `I` and a stack entry (R11, R20), and the number of a general register (R22). -/

namespace Sys2Proof

/-- "A byte is 8 bits" (R11): a general register, a timer, a memory location, an immediate `kk`. -/
abbrev Byte := BitVec 8

/-- 16 bits: an opcode (R70), `pc`, `I` and a stack entry (R20). -/
abbrev Word := BitVec 16

/-- The 12-bit address field `nnn` (R74). -/
abbrev Addr := BitVec 12

/-- The number of a general register, 0 to 15 (R22); a decoded register field is always legal (R78). -/
abbrev Reg := Fin 16

end Sys2Proof
end

