-- ==== Sys2Proof/Config.lean ====
section
/-! DEFINITION. What is fixed for one machine: the constants of R9, the type of the parameters that R10 leaves open
with their default values, and the free values (opaque: nothing can evaluate them). -/

namespace Sys2Proof.Config

/-- `MEM_SIZE` (R9): the addresses are 0 to 4095. -/
@[simp] abbrev memSize : Nat := 4096

/-- `PROG_BASE` (R9): the first address of a loaded program. -/
@[simp] abbrev progBase : Nat := 0x200

/-- `PROG_MAX` (R9): the largest loadable program, in bytes. -/
@[simp] abbrev progMax : Nat := 3584

/-- `STACK_DEPTH` (R9). -/
@[simp] abbrev stackDepth : Nat := 16

/-- The 16 keys, pressed or released (R221): `NKEYS` Booleans, `keys[k]` true when key `k` is pressed. -/
abbrev Keys := Vector Bool 16

/-- The parameter `KeySelect` of R10 as plain data. -/
inductive KeySelect where
  /-- the default of R10: the lowest pressed index. -/
  | lowest
  /-- any other function that obeys the law of R181; which one is the free value `keyChoice`. -/
  | other
  deriving DecidableEq, Repr

/-- The parameters the source leaves open (R10), fixed for one machine. They are plain data carried by the state and
written by nothing (assumption 3), so a statement about every state holds for every choice of them. -/
structure Params where
  /-- `FONT_BASE` (D4). -/
  fontBase : Word
  /-- `FONT_STRIDE` (D4). -/
  fontStride : Nat
  /-- `LOW_MEM_IMAGE` (D3): the memory cells below 0x200 whose contents after `Reset` differ from the default
  image; the empty list is the default image (assumption 4). -/
  lowMem : List Host.Cell
  /-- `STRICT_XY0` (D8). -/
  strictXY0 : Bool
  /-- `KeySelect` (D23). -/
  keySelect : KeySelect
  deriving DecidableEq, Repr

/-- The defaults of R10. -/
def Params.default : Params :=
  { fontBase := 0x000#16, fontStride := 5, lowMem := [], strictXY0 := false, keySelect := .lowest }

/-- FREE VALUE. The key vector of the n-th sample when the host has supplied none: "The value may differ from one
step to the next in any way" (R221). -/
opaque freeKeys : Nat → Keys

/-- FREE VALUE. The random byte of the n-th draw when the host has supplied none: "Nothing is assumed of it" (R222). -/
opaque freeRnd : Nat → Byte

/-- FREE VALUE. The key that a `KeySelect` other than the default prefers; it is used only where the key it names is
pressed, so every lawful `KeySelect` of R181 is one of its values. -/
opaque keyChoice : Keys → Fin 16

end Sys2Proof.Config
end

