-- ==== Sys2Proof/Machine/State.lean ====
section
/-! DEFINITION. The State Store of R20 as plain data, with the machine's parameters (R10) and the host's inputs that
are not state of the hardware (R38); the ways a step can fail (R200); the state after `Reset` (R42). -/

namespace Sys2Proof.Machine

/-- The display: `disp[px][py]`, 64 columns of 32 Booleans, true = lit (R31). -/
abbrev Display := Vector (Vector Bool 32) 64

/-- Memory contents as the list of the cells that differ from the reset contents, in rising order of address
(`Memory.wf` in Sys2Proof/Machine/Memory.lean). -/
abbrev Memory := List Host.Cell

/-- The machine. The first nine fields are "the whole architectural state" of R20; the last five are the model's own:
the parameters fixed for the machine and the inputs the host supplies. -/
structure State where
  /-- `v_reg`: V[0] to V[15]; V[15] is VF (R22, R23). -/
  v : Vector Byte 16
  /-- `I`, the index register (R28). -/
  i : Word
  /-- `pc` (R24). -/
  pc : Word
  /-- `stack[0]` to `stack[15]` (R29). -/
  stack : Vector Word 16
  /-- `sp`, the number of valid stack entries, 0 to 16 (R29). -/
  sp : Fin 17
  /-- `disp` (R31). -/
  display : Display
  /-- `DT`, the delay timer (R32). -/
  dt : Byte
  /-- `ST`, the sound timer (R32). -/
  st : Byte
  /-- `memory`, 4096 bytes (R50). -/
  mem : Memory
  /-- MODEL'S OWN: the parameters of R10, which nothing writes (assumption 3). -/
  params : Config.Params
  /-- MODEL'S OWN: the key vectors the host supplies to the coming steps that sample the keys, first one first; when
  none is left the sample is the free value `Config.freeKeys` (assumption 1). -/
  keyInputs : List Config.Keys
  /-- MODEL'S OWN: how many times the keys were sampled (assumption 1). -/
  keySamples : Nat
  /-- MODEL'S OWN: the random bytes the host supplies to the coming executions of `RND`, first one first; when none is
  left the byte is the free value `Config.freeRnd` (assumption 2). -/
  rndInputs : List Byte
  /-- MODEL'S OWN: how many random bytes were drawn (assumption 2). -/
  rndSamples : Nat
  deriving DecidableEq, Repr

/-- The five error values of R200. A step or a load that raises one changes nothing (R203), so the state before the
request is the state after it and `Fault` carries no state. Each is the outcome the spec gives: safe. -/
inductive Fault where
  /-- raised by executing `Unknown(raw)` (R107); safe. -/
  | unimplementedOpcode (raw : Word)
  /-- raised by `CALL` when `sp == 16` (R124); safe. -/
  | stackOverflow
  /-- raised by `RET` when `sp == 0` (R121); safe. -/
  | stackUnderflow
  /-- raised by the fetch when `pc > 4094` (R102) and by `DRW`, `LD B,Vx`, `LD [I],Vx`, `LD Vx,[I]` when an address of
  the access is above 4095 (R56); safe. -/
  | outOfBoundsAddress
  /-- raised by `LoadProgram` alone, for more than 3584 bytes (R218); never by a step; safe. -/
  | programTooLarge
  deriving DecidableEq, Repr

/-- Why the model gives no meaning. Every instruction has one, so no step answers a refusal; safe. -/
inductive Refusal where
  /-- an instruction without a meaning yet, raised by its arm of `exec`; no arm raises it; safe. -/
  | notModelled (mnemonic : String)
  deriving DecidableEq, Repr

/-- The outcome of executing one instruction. -/
abbrev Out := Host.Outcome State Fault Refusal

/-- The state after `Reset` (R42, R230) with the default parameters of R10: everything 0 or false but `pc` = 0x200;
memory at its reset contents, so no cell is listed; no input supplied yet. -/
def State.reset : State :=
  { v := Vector.replicate 16 0#8
    i := 0#16
    pc := 0x200#16
    stack := Vector.replicate 16 0#16
    sp := 0
    display := Vector.replicate 64 (Vector.replicate 32 false)
    dt := 0#8
    st := 0#8
    mem := []
    params := Config.Params.default
    keyInputs := []
    keySamples := 0
    rndInputs := []
    rndSamples := 0 }

end Sys2Proof.Machine
end

