-- ==== Sys2Proof/Machine/Memory.lean ====
section
/-! DEFINITION. The one address space (R50): its reset contents, reading and writing one byte, moving several bytes,
and the range check that comes before any byte is moved (R56). -/

namespace Sys2Proof.Machine

/-- The standard hexadecimal font, 16 sprites of 5 bytes (R190; general knowledge there, D3). -/
def fontImage : List Byte :=
  [0xF0, 0x90, 0x90, 0x90, 0xF0] ++ [0x20, 0x60, 0x20, 0x20, 0x70] ++ [0xF0, 0x10, 0xF0, 0x80, 0xF0] ++
  [0xF0, 0x10, 0xF0, 0x10, 0xF0] ++ [0x90, 0x90, 0xF0, 0x10, 0x10] ++ [0xF0, 0x80, 0xF0, 0x10, 0xF0] ++
  [0xF0, 0x80, 0xF0, 0x90, 0xF0] ++ [0xF0, 0x10, 0x20, 0x40, 0x40] ++ [0xF0, 0x90, 0xF0, 0x90, 0xF0] ++
  [0xF0, 0x90, 0xF0, 0x10, 0xF0] ++ [0xF0, 0x90, 0xF0, 0x90, 0x90] ++ [0xE0, 0x90, 0xE0, 0x90, 0xE0] ++
  [0xF0, 0x80, 0x80, 0x80, 0xF0] ++ [0xE0, 0x90, 0x90, 0x90, 0xE0] ++ [0xF0, 0x80, 0xF0, 0x80, 0xF0] ++
  [0xF0, 0x80, 0xF0, 0x80, 0x80]

/-- What an address that is not listed reads as: the reset contents of R42 with the default `LOW_MEM_IMAGE` of R10,
the font at 0x000 and zero elsewhere (assumption 4). -/
def Memory.unlisted (a : Nat) : Byte := fontImage.getD a 0#8

/-- `MemRead(a, 1)` (R13): the byte at address `a`. The list is in rising order, so the search ends at the first
address that is not below `a`. -/
def Memory.read : Memory → Nat → Byte
  | [], a => Memory.unlisted a
  | (b, w) :: m, a => if b < a then Memory.read m a else if b = a then w else Memory.unlisted a

/-- The cells of the list above address `a`, once those below it are passed. -/
def Memory.above (a : Nat) : Memory → Memory
  | [] => []
  | (b, w) :: m => if b ≤ a then Memory.above a m else (b, w) :: m

/-- A cell before the cells above it, left out when it holds what an unlisted address reads as. -/
def Memory.cell (a : Nat) (w : Byte) (m : Memory) : Memory := if w = Memory.unlisted a then m else (a, w) :: m

/-- `MemWrite(a, 1, w)` (R13): the store of one byte, keeping the canonical form. -/
def Memory.write : Memory → Nat → Byte → Memory
  | [], a, w => Memory.cell a w []
  | (b, u) :: m, a, w =>
    if b < a then (b, u) :: Memory.write m a w else Memory.cell a w (Memory.above a ((b, u) :: m))

/-- The canonical form from address `lo` on: addresses strictly rising and below 4096, no cell equal to what an
unlisted address reads as. -/
def Memory.wfFrom : Nat → Memory → Bool
  | _, [] => true
  | lo, (b, w) :: m =>
    decide (lo ≤ b) && decide (b < Config.memSize) && (w != Memory.unlisted b) && Memory.wfFrom (b + 1) m

/-- The canonical form of a memory: equal contents are equal lists. -/
def Memory.wf (m : Memory) : Bool := Memory.wfFrom 0 m

/-- The bytes at `lo`, `lo + 1`, ..., `lo + count - 1` (R53). -/
def Memory.readBytes (m : Memory) (lo count : Nat) : List Byte := (List.range count).map fun k => m.read (lo + k)

/-- The bytes stored at `lo`, `lo + 1`, ... in order (R53). -/
def Memory.writeBytes : Memory → Nat → List Byte → Memory
  | m, _, [] => m
  | m, lo, b :: bs => Memory.writeBytes (Memory.write m lo b) (lo + 1) bs

/-- The range check of R56: "the check is `hi <= 4095`" with `hi = lo + count - 1`, and an access of zero bytes never
fails. -/
def rangeOk (lo count : Nat) : Bool := count == 0 || decide (lo + count - 1 ≤ 4095)

/-- The constraint of D4 on the font parameters, and `LOW_MEM_IMAGE` a canonical memory below 0x200 (R10). -/
def paramsWf (p : Config.Params) : Bool :=
  decide (p.fontBase.toNat + 16 * p.fontStride ≤ 0x200) && Memory.wf p.lowMem &&
    p.lowMem.all fun c => decide (c.1 < Config.progBase)

end Sys2Proof.Machine
end

