-- ==== Sys2Proof/Machine/Ops.lean ====
section
/-! DEFINITION. The named operations over the state: reading and writing each register, the display and the stack
(R13, R30), sampling the host's inputs (R221, R222), and the ways an instruction ends (R101 step 5, R106). -/

namespace Sys2Proof.Machine

/-- `V[r]` (R13). -/
def State.reg (s : State) (r : Reg) : Byte := s.v[r.val]

/-- `V[r] <- b` (R13). -/
def State.setReg (s : State) (r : Reg) (b : Byte) : State := { s with v := s.v.set r.val b }

/-- The whole register file replaced: the writes of `LD Vx,[I]` (R188). -/
def State.setRegs (s : State) (v : Vector Byte 16) : State := { s with v := v }

/-- `I <- w` (R13). -/
def State.setI (s : State) (w : Word) : State := { s with i := w }

/-- `pc <- w` (R13). -/
def State.setPc (s : State) (w : Word) : State := { s with pc := w }

/-- `DT <- b` (R13). -/
def State.setDt (s : State) (b : Byte) : State := { s with dt := b }

/-- `ST <- b` (R13). -/
def State.setSt (s : State) (b : Byte) : State := { s with st := b }

/-- The memory replaced by the memory after the stores of an instruction. -/
def State.setMem (s : State) (m : Memory) : State := { s with mem := m }

/-- The display replaced. -/
def State.setDisplay (s : State) (d : Display) : State := { s with display := d }

/-- The stack entries and the stack pointer replaced. -/
def State.setStack (s : State) (k : Vector Word 16) (sp : Fin 17) : State := { s with stack := k, sp := sp }

/-- `disp[px][py]` of a display (R31). -/
def Display.get (d : Display) (px : Fin 64) (py : Fin 32) : Bool := d[px.val][py.val]

/-- `disp[px][py] <- b`. -/
def Display.set (d : Display) (px : Fin 64) (py : Fin 32) (b : Bool) : Display :=
  Vector.set d px.val (d[px.val].set py.val b)

/-- The display with every pixel false (R120). -/
def Display.clear : Display := Vector.replicate 64 (Vector.replicate 32 false)

/-- `disp[px][py]` (R13). -/
def State.pixel (s : State) (px : Fin 64) (py : Fin 32) : Bool := Display.get s.display px py

/-- `push(w)` of R30; none stands for `raise StackOverflow`. -/
def State.push (s : State) (w : Word) : Option State :=
  if h : s.sp.val < 16 then some (s.setStack (s.stack.set s.sp.val w) ⟨s.sp.val + 1, by omega⟩) else none

/-- `pop()` of R30: the popped value with the state after it; the entry stays in `stack`. None stands for
`raise StackUnderflow`. -/
def State.pop (s : State) : Option (Word × State) :=
  if h : 0 < s.sp.val then some (s.stack[s.sp.val - 1], s.setStack s.stack ⟨s.sp.val - 1, by omega⟩) else none

/-- The key vector of this step (R221): what the host supplied, else a free value (assumption 1). -/
def State.keys (s : State) : Config.Keys :=
  match s.keyInputs with
  | k :: _ => k
  | [] => Config.freeKeys s.keySamples

/-- The sample of the keys is used up: the next one may differ in any way (R221). -/
def State.takeKeys (s : State) : State :=
  { s with keyInputs := s.keyInputs.tail, keySamples := s.keySamples + 1 }

/-- The random byte of this step (R222): what the host supplied, else a free value (assumption 2). -/
def State.rnd (s : State) : Byte :=
  match s.rndInputs with
  | b :: _ => b
  | [] => Config.freeRnd s.rndSamples

/-- The random byte is used up: "each execution of `RND` consumes a fresh byte" (R143). -/
def State.takeRnd (s : State) : State :=
  { s with rndInputs := s.rndInputs.tail, rndSamples := s.rndSamples + 1 }

/-- `Next(S1)`: `pc <- a + 2` (R101 step 5), `pc` still holding the instruction's own address `a` (R24). -/
def next (s : State) : Out := .next (s.setPc (s.pc + 2))

/-- `Skip(S1)` where the condition holds, `pc <- a + 4`; otherwise `Next(S1)` (R101 step 5, R25). -/
def skipIf (c : Bool) (s : State) : Out := .next (s.setPc (s.pc + if c then 4 else 2))

/-- `Jump(S1, t)`: `pc <- t`, and no generic advance (R101 step 5, R25). -/
def jump (t : Word) (s : State) : Out := .next (s.setPc t)

/-- `Next(S1)` where the condition holds; otherwise `Wait`, `pc` and everything else as before the step (R108). -/
def nextOrWait (c : Bool) (s1 idle : State) : Out := .next (if c then s1.setPc (s1.pc + 2) else idle)

/-- Taking an error, the one operation of it: `raise E` ends the step with the error value, "the hardware does nothing
but return `Err(e)`" (R106, R203). Nothing is saved, no handler is entered, and there is no return from it (R205). -/
def raise (e : Fault) : Out := .fault e

/-- The numbers of the error values (R200, D26). -/
def errorCode : Fault → Nat
  | .unimplementedOpcode _ => 1
  | .stackOverflow => 2
  | .stackUnderflow => 3
  | .outOfBoundsAddress => 4
  | .programTooLarge => 5

end Sys2Proof.Machine
end

