-- ==== Sys2Proof/Machine/Flags.lean ====
section
/-! DEFINITION. The flag computations of R33 for the five ALU instructions that write VF, on mathematical integers
(R14), and the write of a result with its flag (R159). -/

namespace Sys2Proof.Machine

/-- A flag result is "always the 8-bit value 0 or 1" (R23). -/
def flagByte (f : Bool) : Byte := if f then 1#8 else 0#8

/-- `ADD Vx,Vy`: 1 if `a + b > 255` (R154). -/
def carryFlag (a b : Byte) : Bool := decide (a.toNat + b.toNat > 255)

/-- `SUB Vx,Vy`: 1 if `a >= b`, not borrow (R155); `SUBN Vx,Vy` is the same with the operands exchanged (R157). -/
def notBorrow (a b : Byte) : Bool := decide (a.toNat ≥ b.toNat)

/-- `SHR Vx`: `a[0]`, the bit shifted out (R156). -/
def lsbFlag (a : Byte) : Bool := a.getLsbD 0

/-- `SHL Vx`: `a[7]`, the bit shifted out (R158). -/
def msbFlag (a : Byte) : Bool := a.getLsbD 7

/-- VF is register 15 (R23). -/
def VF : Reg := 15

/-- `V[15] <- f`. -/
def State.setFlag (s : State) (f : Bool) : State := s.setReg VF (flagByte f)

/-- The order of R159: `V[x] <- r` is written, and last `V[15] <- f`. -/
def State.setResult (s : State) (x : Reg) (r : Byte) (f : Bool) : State := (s.setReg x r).setFlag f

end Sys2Proof.Machine
end

