-- ==== Sys2Proof/Machine/Alu.lean ====
section
/-! DEFINITION. The register-register ALU family (spec file 44). Both operands are read from the state before any
write (R159). -/

namespace Sys2Proof.Machine

/-- `LD Vx,Vy` (R150). -/
def execLdReg (x y : Reg) (s : State) : Out := next (s.setReg x (s.reg y))

/-- `OR Vx,Vy` (R151). -/
def execOrReg (x y : Reg) (s : State) : Out := next (s.setReg x (s.reg x ||| s.reg y))

/-- `AND Vx,Vy` (R152). -/
def execAndReg (x y : Reg) (s : State) : Out := next (s.setReg x (s.reg x &&& s.reg y))

/-- `XOR Vx,Vy` (R153). -/
def execXorReg (x y : Reg) (s : State) : Out := next (s.setReg x (s.reg x ^^^ s.reg y))

/-- `ADD Vx,Vy` (R154). -/
def execAddReg (x y : Reg) (s : State) : Out :=
  next (s.setResult x (s.reg x + s.reg y) (carryFlag (s.reg x) (s.reg y)))

/-- `SUB Vx,Vy` (R155). -/
def execSubReg (x y : Reg) (s : State) : Out :=
  next (s.setResult x (s.reg x - s.reg y) (notBorrow (s.reg x) (s.reg y)))

/-- `SHR Vx` (R156): Vy is neither read nor written. -/
def execShr (x : Reg) (s : State) : Out := next (s.setResult x (s.reg x >>> 1) (lsbFlag (s.reg x)))

/-- `SUBN Vx,Vy` (R157). -/
def execSubnReg (x y : Reg) (s : State) : Out :=
  next (s.setResult x (s.reg y - s.reg x) (notBorrow (s.reg y) (s.reg x)))

/-- `SHL Vx` (R158): Vy is neither read nor written. -/
def execShl (x : Reg) (s : State) : Out := next (s.setResult x (s.reg x <<< 1) (msbFlag (s.reg x)))

end Sys2Proof.Machine
end

