-- ==== Sys2Proof/Machine/Operands.lean ====
section
/-! DEFINITION. The operand forms: zero-extended immediates (R78), the key and digit a register names (R134, R185),
the choice among pressed keys (R181), the bytes a bulk transfer moves (R187, R188), the digits of `LD B,Vx` (R186)
and the pixels a sprite toggles (R171, R172). -/

namespace Sys2Proof.Machine

/-- `zext_16(nnn)` (R78). -/
def zext16 (nnn : Addr) : Word := nnn.setWidth 16

/-- `b[3:0]`: the key number of R134 and the font digit of R185. -/
def lowNibble (b : Byte) : Fin 16 := (b.extractLsb' 0 4).toFin

/-- Key `k` is pressed (R221). -/
def pressed (keys : Config.Keys) (k : Fin 16) : Bool := keys[k.val]

/-- At least one key is pressed: the "key event" of R181. -/
def anyPressed (keys : Config.Keys) : Bool := (List.finRange 16).any (pressed keys)

/-- The lowest pressed index (0 where none is pressed, a case no rule reads). -/
def lowestPressed (keys : Config.Keys) : Fin 16 := ((List.finRange 16).find? (pressed keys)).getD 0

/-- `KeySelect(keys)` (R181 c): "its default is the lowest pressed index"; another choice prefers the free value
`Config.keyChoice` and keeps the law that the chosen key is pressed. -/
def keySelect (k : Config.KeySelect) (keys : Config.Keys) : Fin 16 :=
  match k with
  | .lowest => lowestPressed keys
  | .other => if pressed keys (Config.keyChoice keys) then Config.keyChoice keys else lowestPressed keys

/-- `zext_8(k)` of a key number (R181). -/
def keyByte (k : Fin 16) : Byte := BitVec.ofNat 8 k.val

/-- The target of `JP V0,nnn`: the mathematical sum, which fits in 16 bits (R125). -/
def sumTarget (nnn : Addr) (v0 : Byte) : Word := BitVec.ofNat 16 (nnn.toNat + v0.toNat)

/-- `(I + Vx) mod 65536` (R184). -/
def sumIndex (i : Word) (b : Byte) : Word := BitVec.ofNat 16 (i.toNat + b.toNat)

/-- `FONT_BASE + FONT_STRIDE * d` (R185). -/
def fontAddress (p : Config.Params) (d : Fin 16) : Word :=
  BitVec.ofNat 16 (p.fontBase.toNat + p.fontStride * d.val)

/-- The three digits of R186, hundreds first. -/
def bcdDigits (b : Byte) : List Byte :=
  [BitVec.ofNat 8 (b.toNat / 100), BitVec.ofNat 8 (b.toNat / 10 % 10), BitVec.ofNat 8 (b.toNat % 10)]

/-- V[0] to V[x], both ends included: what `LD [I],Vx` stores (R187). -/
def regsUpTo (v : Vector Byte 16) (x : Reg) : List Byte := v.toList.take (x.val + 1)

/-- `V[k] <- MemRead(lo + k, 1)` for `k` from 0 to `x`; "registers above `x` are unchanged" (R188). -/
def loadedRegs (v : Vector Byte 16) (m : Memory) (lo : Nat) (x : Reg) : Vector Byte 16 :=
  Vector.ofFn fun k => if k.val ≤ x.val then m.read (lo + k.val) else v[k.val]

/-- The pixels row `r` of a sprite toggles: bit `7 - c` of its byte stands for column `c`, both coordinates wrapping
(R171, R172). -/
def rowPixels (x0 y0 r : Nat) (row : Byte) : List (Fin 64 × Fin 32) :=
  ((List.range 8).filter fun c => row.getLsbD (7 - c)).map fun c => (Fin.ofNat 64 (x0 + c), Fin.ofNat 32 (y0 + r))

/-- The pixels the rows `r`, `r + 1`, ... of a sprite toggle, in the order of the loops of R170. -/
def spritePixels (x0 y0 : Nat) : Nat → List Byte → List (Fin 64 × Fin 32)
  | _, [] => []
  | r, row :: rows => rowPixels x0 y0 r row ++ spritePixels x0 y0 (r + 1) rows

/-- The body of the loops of R170 for one pixel whose sprite bit is 1: the flag is set where the pixel is lit, then the
pixel is inverted. -/
def togglePixel (acc : Display × Bool) (p : Fin 64 × Fin 32) : Display × Bool :=
  (Display.set acc.1 p.1 p.2 (!Display.get acc.1 p.1 p.2), acc.2 || Display.get acc.1 p.1 p.2)

/-- The loops of R170: the display after the blit, and whether a lit pixel was turned off. -/
def blit (d : Display) (x0 y0 : Nat) (rows : List Byte) : Display × Bool :=
  (spritePixels x0 y0 0 rows).foldl togglePixel (d, false)

end Sys2Proof.Machine
end

