-- ==== Sys2Proof/Machine/Draw.lean ====
section
/-! DEFINITION. The sprite draw family (spec file 45). -/

namespace Sys2Proof.Machine

/-- `DRW Vx,Vy,n` (R170): the range check first, then the sprite bytes and both coordinates are read, then the display
and last VF are written. -/
def execDrw (x y : Reg) (n : Fin 16) (s : State) : Out :=
  if rangeOk s.i.toNat n.val then
    let after := blit s.display (s.reg x).toNat (s.reg y).toNat (s.mem.readBytes s.i.toNat n.val)
    next ((s.setDisplay after.1).setFlag after.2)
  else raise .outOfBoundsAddress

end Sys2Proof.Machine
end

