-- ==== Sys2Proof/Machine/Flow.lean ====
section
/-! DEFINITION. The control flow family (spec file 41) and the `Unknown` variant (R107). -/

namespace Sys2Proof.Machine

/-- `CLS` (R120). -/
def execCls (s : State) : Out := next (s.setDisplay Display.clear)

/-- `RET` (R121). -/
def execRet (s : State) : Out :=
  match s.pop with
  | some (t, s1) => jump t s1
  | none => raise .stackUnderflow

/-- `SYS nnn` (R122): nothing. -/
def execSys (_nnn : Addr) (s : State) : Out := next s

/-- `JP nnn` (R123). -/
def execJp (nnn : Addr) (s : State) : Out := jump (zext16 nnn) s

/-- `CALL nnn` (R124): the value pushed is the address of the instruction after the `CALL`. -/
def execCall (nnn : Addr) (s : State) : Out :=
  match s.push (s.pc + 2) with
  | some s1 => jump (zext16 nnn) s1
  | none => raise .stackOverflow

/-- `JP V0,nnn` (R125). -/
def execJpV0 (nnn : Addr) (s : State) : Out := jump (sumTarget nnn (s.reg 0)) s

/-- `Unknown(raw)` (R107); no constructor of `Instr`, so the step calls it. -/
def execUnknown (raw : Word) : Out := raise (.unimplementedOpcode raw)

end Sys2Proof.Machine
end

