-- ==== Sys2Proof/Machine/Immediate.lean ====
section
/-! DEFINITION. The immediate load and arithmetic family (spec file 43). -/

namespace Sys2Proof.Machine

/-- `LD Vx,kk` (R140). -/
def execLdImm (x : Reg) (kk : Byte) (s : State) : Out := next (s.setReg x kk)

/-- `ADD Vx,kk` (R141): the sum wraps at 8 bits and no flag is written. -/
def execAddImm (x : Reg) (kk : Byte) (s : State) : Out := next (s.setReg x (s.reg x + kk))

/-- `LD I,nnn` (R142). -/
def execLdI (nnn : Addr) (s : State) : Out := next (s.setI (zext16 nnn))

/-- `RND Vx,kk` (R143): `V[x] <- rnd & kk`, the random byte of this step used up. -/
def execRnd (x : Reg) (kk : Byte) (s : State) : Out := next (s.takeRnd.setReg x (s.rnd &&& kk))

end Sys2Proof.Machine
end

