-- ==== Sys2Proof/Machine/MemTimer.lean ====
section
/-! DEFINITION. The memory, BCD, font and timer family (spec file 46). -/

namespace Sys2Proof.Machine

/-- `LD Vx,DT` (R180). -/
def execLdVxDt (x : Reg) (s : State) : Out := next (s.setReg x s.dt)

/-- `LD Vx,K` (R181): waits while no key is pressed, else loads the number of the selected key. -/
def execLdVxK (x : Reg) (s : State) : Out :=
  nextOrWait (anyPressed s.keys) (s.takeKeys.setReg x (keyByte (keySelect s.params.keySelect s.keys))) s.takeKeys

/-- `LD DT,Vx` (R182). -/
def execLdDtVx (x : Reg) (s : State) : Out := next (s.setDt (s.reg x))

/-- `LD ST,Vx` (R183). -/
def execLdStVx (x : Reg) (s : State) : Out := next (s.setSt (s.reg x))

/-- `ADD I,Vx` (R184): the sum wraps at 16 bits, no flag is written and the new `I` is not checked. -/
def execAddIVx (x : Reg) (s : State) : Out := next (s.setI (sumIndex s.i (s.reg x)))

/-- `LD F,Vx` (R185): the low 4 bits of Vx are the digit. -/
def execLdFVx (x : Reg) (s : State) : Out := next (s.setI (fontAddress s.params (lowNibble (s.reg x))))

/-- `LD B,Vx` (R186). -/
def execLdBVx (x : Reg) (s : State) : Out :=
  if rangeOk s.i.toNat 3 then next (s.setMem (s.mem.writeBytes s.i.toNat (bcdDigits (s.reg x))))
  else raise .outOfBoundsAddress

/-- `LD [I],Vx` (R187); `I` is not changed. -/
def execLdMemVx (x : Reg) (s : State) : Out :=
  if rangeOk s.i.toNat (x.val + 1) then next (s.setMem (s.mem.writeBytes s.i.toNat (regsUpTo s.v x)))
  else raise .outOfBoundsAddress

/-- `LD Vx,[I]` (R188); `I` is not changed. -/
def execLdVxMem (x : Reg) (s : State) : Out :=
  if rangeOk s.i.toNat (x.val + 1) then next (s.setRegs (loadedRegs s.v s.mem s.i.toNat x))
  else raise .outOfBoundsAddress

end Sys2Proof.Machine
end

