-- ==== Sys2Proof/Machine/Skip.lean ====
section
/-! DEFINITION. The conditional skip family (spec file 42). -/

namespace Sys2Proof.Machine

/-- `SE Vx,kk` (R130). -/
def execSeImm (x : Reg) (kk : Byte) (s : State) : Out := skipIf (s.reg x == kk) s

/-- `SNE Vx,kk` (R131). -/
def execSneImm (x : Reg) (kk : Byte) (s : State) : Out := skipIf (s.reg x != kk) s

/-- `SE Vx,Vy` (R132). -/
def execSeReg (x y : Reg) (s : State) : Out := skipIf (s.reg x == s.reg y) s

/-- `SNE Vx,Vy` (R133). -/
def execSneReg (x y : Reg) (s : State) : Out := skipIf (s.reg x != s.reg y) s

/-- `SKP Vx` (R134): the low 4 bits of Vx select the key. -/
def execSkp (x : Reg) (s : State) : Out := skipIf (pressed s.keys (lowNibble (s.reg x))) s.takeKeys

/-- `SKNP Vx` (R135). -/
def execSknp (x : Reg) (s : State) : Out := skipIf (!pressed s.keys (lowNibble (s.reg x))) s.takeKeys

end Sys2Proof.Machine
end

