-- ==== Sys2Proof/Syntax.lean ====
section
/-! DEFINITION. The instruction set: one constructor for each of the 35 rows of spec/opcode_table.json, with the
operand fields R88 gives it. `Unknown(raw)` is no row of the table; it is the second answer of the decoder
(Sys2Proof/Decode.lean). -/

namespace Sys2Proof

/-- The closed instruction union of R88, in the order of R80. A constructor carries "only the operand fields its
opcode family needs" (R77). -/
inductive Instr where
  /-- `CLS`, 00E0 (R120). -/
  | cls
  /-- `RET`, 00EE (R121). -/
  | ret
  /-- `SYS nnn`, 0nnn (R122). -/
  | sys (nnn : Addr)
  /-- `JP nnn`, 1nnn (R123). -/
  | jp (nnn : Addr)
  /-- `CALL nnn`, 2nnn (R124). -/
  | call (nnn : Addr)
  /-- `SE Vx,kk`, 3xkk (R130). -/
  | seImm (x : Reg) (kk : Byte)
  /-- `SNE Vx,kk`, 4xkk (R131). -/
  | sneImm (x : Reg) (kk : Byte)
  /-- `SE Vx,Vy`, 5xyN (R132). -/
  | seReg (x y : Reg)
  /-- `LD Vx,kk`, 6xkk (R140). -/
  | ldImm (x : Reg) (kk : Byte)
  /-- `ADD Vx,kk`, 7xkk (R141). -/
  | addImm (x : Reg) (kk : Byte)
  /-- `LD Vx,Vy`, 8xy0 (R150). -/
  | ldReg (x y : Reg)
  /-- `OR Vx,Vy`, 8xy1 (R151). -/
  | orReg (x y : Reg)
  /-- `AND Vx,Vy`, 8xy2 (R152). -/
  | andReg (x y : Reg)
  /-- `XOR Vx,Vy`, 8xy3 (R153). -/
  | xorReg (x y : Reg)
  /-- `ADD Vx,Vy`, 8xy4 (R154). -/
  | addReg (x y : Reg)
  /-- `SUB Vx,Vy`, 8xy5 (R155). -/
  | subReg (x y : Reg)
  /-- `SHR Vx`, 8xy6 with y ignored (R156). -/
  | shr (x : Reg)
  /-- `SUBN Vx,Vy`, 8xy7 (R157). -/
  | subnReg (x y : Reg)
  /-- `SHL Vx`, 8xyE with y ignored (R158). -/
  | shl (x : Reg)
  /-- `SNE Vx,Vy`, 9xyN (R133). -/
  | sneReg (x y : Reg)
  /-- `LD I,nnn`, Annn (R142). -/
  | ldI (nnn : Addr)
  /-- `JP V0,nnn`, Bnnn (R125). -/
  | jpV0 (nnn : Addr)
  /-- `RND Vx,kk`, Cxkk (R143). -/
  | rnd (x : Reg) (kk : Byte)
  /-- `DRW Vx,Vy,n`, Dxyn (R170); `n` is the number of sprite rows, 0 to 15 (R76). -/
  | drw (x y : Reg) (n : Fin 16)
  /-- `SKP Vx`, Ex9E (R134). -/
  | skp (x : Reg)
  /-- `SKNP Vx`, ExA1 (R135). -/
  | sknp (x : Reg)
  /-- `LD Vx,DT`, Fx07 (R180). -/
  | ldVxDt (x : Reg)
  /-- `LD Vx,K`, Fx0A (R181). -/
  | ldVxK (x : Reg)
  /-- `LD DT,Vx`, Fx15 (R182). -/
  | ldDtVx (x : Reg)
  /-- `LD ST,Vx`, Fx18 (R183). -/
  | ldStVx (x : Reg)
  /-- `ADD I,Vx`, Fx1E (R184). -/
  | addIVx (x : Reg)
  /-- `LD F,Vx`, Fx29 (R185). -/
  | ldFVx (x : Reg)
  /-- `LD B,Vx`, Fx33 (R186). -/
  | ldBVx (x : Reg)
  /-- `LD [I],Vx`, Fx55 (R187). -/
  | ldMemVx (x : Reg)
  /-- `LD Vx,[I]`, Fx65 (R188). -/
  | ldVxMem (x : Reg)
  deriving DecidableEq, Repr

end Sys2Proof
end

