-- ==== Sys2Proof/Decode.lean ====
section
/-! DEFINITION. The decoder of R79 to R83: a total function of the opcode alone, answering one of the 35 instructions
or, by name, `unknown raw`; then the encoder (R89), written from the same table (R80). -/

namespace Sys2Proof

/-- One variant of the decoder's union (R88): an instruction, or `Unknown(raw)` carrying the whole opcode (R83). -/
inductive Decoded where
  | instr (i : Instr)
  /-- the rejection by name: an opcode that is none of the 35 instructions; executing it raises
  `UnimplementedOpcode(raw)` (R107). -/
  | unknown (raw : Word)
  deriving DecidableEq, Repr

/-- n1 = op[15:12] (R12, R71). -/
def nib1 (op : Word) : Nat := (op.extractLsb' 12 4).toNat

/-- n2 = op[11:8] is the register number x (R72). -/
def fieldX (op : Word) : Reg := (op.extractLsb' 8 4).toFin

/-- n3 = op[7:4] is the register number y (R75). -/
def fieldY (op : Word) : Reg := (op.extractLsb' 4 4).toFin

/-- n4 = op[3:0] is the sprite height n, or selects the operation of family 8 (R76, R80). -/
def fieldN (op : Word) : Fin 16 := (op.extractLsb' 0 4).toFin

/-- kk = op[7:0] (R73), the trailing byte that selects in families E and F (R80). -/
def fieldKK (op : Word) : Byte := op.extractLsb' 0 8

/-- nnn = op[11:0] (R74). -/
def fieldNNN (op : Word) : Addr := op.extractLsb' 0 12

/-- Family 0: the two exact opcodes win, every other one is `SYS nnn` (R81, D10). -/
def decode0 (op : Word) : Decoded :=
  if op = 0x00E0#16 then .instr .cls
  else if op = 0x00EE#16 then .instr .ret
  else .instr (.sys (fieldNNN op))

/-- Families 5 and 9 (R82 b): n4 is ignored unless the parameter `STRICT_XY0` asks for n4 = 0. -/
def decodeXY0 (strictXY0 : Bool) (i : Reg → Reg → Instr) (op : Word) : Decoded :=
  if strictXY0 && fieldN op != 0 then .unknown op else .instr (i (fieldX op) (fieldY op))

/-- Family 8, keyed by n4 (R80 rows 11 to 19); `SHR` and `SHL` ignore y (R82 a). -/
def decode8 (op : Word) : Decoded :=
  match (fieldN op).val with
  | 0x0 => .instr (.ldReg (fieldX op) (fieldY op))
  | 0x1 => .instr (.orReg (fieldX op) (fieldY op))
  | 0x2 => .instr (.andReg (fieldX op) (fieldY op))
  | 0x3 => .instr (.xorReg (fieldX op) (fieldY op))
  | 0x4 => .instr (.addReg (fieldX op) (fieldY op))
  | 0x5 => .instr (.subReg (fieldX op) (fieldY op))
  | 0x6 => .instr (.shr (fieldX op))
  | 0x7 => .instr (.subnReg (fieldX op) (fieldY op))
  | 0xE => .instr (.shl (fieldX op))
  | _ => .unknown op

/-- Family E, keyed by the whole trailing byte (R80 rows 25 and 26, D10). -/
def decodeE (op : Word) : Decoded :=
  match (fieldKK op).toNat with
  | 0x9E => .instr (.skp (fieldX op))
  | 0xA1 => .instr (.sknp (fieldX op))
  | _ => .unknown op

/-- Family F, keyed by the whole trailing byte (R80 rows 27 to 35, D10). -/
def decodeF (op : Word) : Decoded :=
  match (fieldKK op).toNat with
  | 0x07 => .instr (.ldVxDt (fieldX op))
  | 0x0A => .instr (.ldVxK (fieldX op))
  | 0x15 => .instr (.ldDtVx (fieldX op))
  | 0x18 => .instr (.ldStVx (fieldX op))
  | 0x1E => .instr (.addIVx (fieldX op))
  | 0x29 => .instr (.ldFVx (fieldX op))
  | 0x33 => .instr (.ldBVx (fieldX op))
  | 0x55 => .instr (.ldMemVx (fieldX op))
  | 0x65 => .instr (.ldVxMem (fieldX op))
  | _ => .unknown op

/-- The decoder (R79, R80): "dispatch primarily on n1". It reads the opcode and the parameter `STRICT_XY0`, nothing
else. The last arm is never reached, n1 being below 16. -/
def decode (strictXY0 : Bool) (op : Word) : Decoded :=
  match nib1 op with
  | 0x0 => decode0 op
  | 0x1 => .instr (.jp (fieldNNN op))
  | 0x2 => .instr (.call (fieldNNN op))
  | 0x3 => .instr (.seImm (fieldX op) (fieldKK op))
  | 0x4 => .instr (.sneImm (fieldX op) (fieldKK op))
  | 0x5 => decodeXY0 strictXY0 .seReg op
  | 0x6 => .instr (.ldImm (fieldX op) (fieldKK op))
  | 0x7 => .instr (.addImm (fieldX op) (fieldKK op))
  | 0x8 => decode8 op
  | 0x9 => decodeXY0 strictXY0 .sneReg op
  | 0xA => .instr (.ldI (fieldNNN op))
  | 0xB => .instr (.jpV0 (fieldNNN op))
  | 0xC => .instr (.rnd (fieldX op) (fieldKK op))
  | 0xD => .instr (.drw (fieldX op) (fieldY op) (fieldN op))
  | 0xE => decodeE op
  | 0xF => decodeF op
  | _ => .unknown op

/-- The opcode of two bytes in memory order: big-endian, the byte at the lower address gives op[15:8] (R52). -/
def opcodeOf (first second : Byte) : Word := first ++ second

/-- The decoder on bytes: it takes two (R70) and answers the variant with the bytes that follow; fewer than two bytes
are no opcode. -/
def decodeBytes (strictXY0 : Bool) : List Byte → Option (Decoded × List Byte)
  | first :: second :: rest => some (decode strictXY0 (opcodeOf first second), rest)
  | [_] | [] => none

/-- The two bytes of an opcode in memory order (R52, R70). -/
def opcodeBytes (op : Word) : List Byte := [op.extractLsb' 8 8, op.extractLsb' 0 8]

/-- What the decoder, with the default `STRICT_XY0` = false, reads from the low `nbits` bits of `w` laid out as an
opcode (R70: every instruction is 16 bits). -/
def decodeTableWord (nbits w : Nat) : Option Instr :=
  match decodeBytes false (opcodeBytes (BitVec.ofNat 16 (w % 2 ^ nbits))) with
  | some (.instr i, _) => some i
  | _ => none

/-- A register number as the four bits of its opcode field (R72, R75). -/
def regBits (r : Fin 16) : BitVec 4 := BitVec.ofFin r

/-- The formats of R77: the leading nibble and `nnn`. -/
def encNNN (n1 : BitVec 4) (nnn : Addr) : Word := n1 ++ nnn

/-- Format XKK (R77). -/
def encXKK (n1 : BitVec 4) (x : Reg) (kk : Byte) : Word := (n1 ++ regBits x ++ kk : BitVec 16)

/-- Formats XY, XSH and XYN (R77); an ignored field is given as 0 (R82 c). -/
def encXYN (n1 : BitVec 4) (x y n : Fin 16) : Word := (n1 ++ regBits x ++ regBits y ++ regBits n : BitVec 16)

/-- The encoder (R89): "take the row of rule R80, put the operand values into their fields by rules R72 to R76, put 0
into every ignored field". -/
def encode : Instr → Word
  | .cls => 0x00E0#16
  | .ret => 0x00EE#16
  | .sys nnn => encNNN 0x0#4 nnn
  | .jp nnn => encNNN 0x1#4 nnn
  | .call nnn => encNNN 0x2#4 nnn
  | .seImm x kk => encXKK 0x3#4 x kk
  | .sneImm x kk => encXKK 0x4#4 x kk
  | .seReg x y => encXYN 0x5#4 x y 0
  | .ldImm x kk => encXKK 0x6#4 x kk
  | .addImm x kk => encXKK 0x7#4 x kk
  | .ldReg x y => encXYN 0x8#4 x y 0x0
  | .orReg x y => encXYN 0x8#4 x y 0x1
  | .andReg x y => encXYN 0x8#4 x y 0x2
  | .xorReg x y => encXYN 0x8#4 x y 0x3
  | .addReg x y => encXYN 0x8#4 x y 0x4
  | .subReg x y => encXYN 0x8#4 x y 0x5
  | .shr x => encXYN 0x8#4 x 0 0x6
  | .subnReg x y => encXYN 0x8#4 x y 0x7
  | .shl x => encXYN 0x8#4 x 0 0xE
  | .sneReg x y => encXYN 0x9#4 x y 0
  | .ldI nnn => encNNN 0xA#4 nnn
  | .jpV0 nnn => encNNN 0xB#4 nnn
  | .rnd x kk => encXKK 0xC#4 x kk
  | .drw x y n => encXYN 0xD#4 x y n
  | .skp x => encXKK 0xE#4 x 0x9E#8
  | .sknp x => encXKK 0xE#4 x 0xA1#8
  | .ldVxDt x => encXKK 0xF#4 x 0x07#8
  | .ldVxK x => encXKK 0xF#4 x 0x0A#8
  | .ldDtVx x => encXKK 0xF#4 x 0x15#8
  | .ldStVx x => encXKK 0xF#4 x 0x18#8
  | .addIVx x => encXKK 0xF#4 x 0x1E#8
  | .ldFVx x => encXKK 0xF#4 x 0x29#8
  | .ldBVx x => encXKK 0xF#4 x 0x33#8
  | .ldMemVx x => encXKK 0xF#4 x 0x55#8
  | .ldVxMem x => encXKK 0xF#4 x 0x65#8

/-- The encoder on a variant: "`Unknown(raw)` encodes as `raw`" (R89). -/
def encodeVariant : Decoded → Word
  | .instr i => encode i
  | .unknown raw => raw

/-- The opcode with every ignored field put to 0 (R82): the canonical forms 5xy0, 9xy0, 8x06 and 8x0E. -/
def canonical (op : Word) : Word :=
  if nib1 op = 0x5 ∨ nib1 op = 0x9 then op &&& 0xFFF0#16
  else if nib1 op = 0x8 ∧ ((fieldN op).val = 0x6 ∨ (fieldN op).val = 0xE) then op &&& 0xFF0F#16
  else op

end Sys2Proof
end

