-- ==== Sys2Proof/Machine/Fetch.lean ====
section
/-! DEFINITION. Fetching the two bytes of an opcode (R102), and laying an opcode out where the next fetch reads. -/

namespace Sys2Proof.Machine

/-- A fetch is possible: both `pc` and `pc + 1` are memory addresses (R102). -/
def State.canFetch (s : State) : Bool := decide (s.pc.toNat ≤ 4094)

/-- The opcode at `pc`: `MemRead(pc,1) ++ MemRead(pc+1,1)` (R52, R101 step 2). -/
def State.opcodeAtPc (s : State) : Word := opcodeOf (s.mem.read s.pc.toNat) (s.mem.read (s.pc.toNat + 1))

/-- Steps 1 to 3 of R101: none where `pc > 4094`, else the decoded variant. -/
def State.fetchDecode (s : State) : Option Decoded :=
  if s.canFetch then some (decode s.params.strictXY0 s.opcodeAtPc) else none

/-- The state with an opcode stored at `pc`. A fetch needs `pc <= 4094`; where `pc` is above, it is put to 0x200. -/
def State.placeOpcode (s : State) (op : Word) : State :=
  let a := if s.canFetch then s.pc else BitVec.ofNat 16 Config.progBase
  (s.setPc a).setMem (s.mem.writeBytes a.toNat (opcodeBytes op))

end Sys2Proof.Machine
end

