-- ==== Sys2Proof/Machine/Step.lean ====
section
/-! DEFINITION. One step: fetch, decode, execute (R100, R101). -/

namespace Sys2Proof.Machine

/-- `Tick` of R101 on the state: steps 1 to 4, the meaning of the instruction having made the `pc` advance of step 5.
`Err(e)` is the outcome `fault e`, the state being as it was (R203); `Ok` and `Waiting` are the outcome `next`
(`tick` in Sys2Proof/Machine/HostOps.lean tells them apart). -/
def step (s : State) : Host.Outcome State Fault Refusal :=
  match s.fetchDecode with
  | none => raise .outOfBoundsAddress
  | some (.unknown raw) => execUnknown raw
  | some (.instr i) => exec i s

/-- The state with the opcode of the low `nbits` bits of `w` stored where the next step fetches. -/
def State.withFetchWord (s : State) (nbits w : Nat) : State := s.placeOpcode (BitVec.ofNat 16 (w % 2 ^ nbits))

end Sys2Proof.Machine
end

