-- ==== Sys2Proof/Machine/HostOps.lean ====
section
/-! DEFINITION. The host interface of R215: the operations `Reset`, `LoadProgram`, `Tick` and `TimerTick` with their
results, the framebuffer and the beep signal, and a run of any sequence of operations (R216). -/

namespace Sys2Proof.Machine

/-- The result of a request (R15); `refused` is the model's own and never returned (every instruction is modelled). -/
inductive Result where
  | ok
  | waiting
  | err (e : Fault)
  | refused (r : Refusal)
  deriving DecidableEq, Repr

/-- The step this state is about to make returns `Waiting`: it fetches `LD Vx,K` and no key is pressed (R108). -/
def State.waits (s : State) : Bool :=
  match s.fetchDecode with
  | some (.instr (.ldVxK _)) => !anyPressed s.keys
  | _ => false

/-- `Tick` (R101 step 5): the state after the step and its result. On an error it is the state before the step. -/
def tick (s : State) : State × Result :=
  match step s with
  | .next t => (t, if s.waits then .waiting else .ok)
  | .fault e => (s, .err e)
  | .refused r => (s, .refused r)

/-- `Tick(S, keys, rnd)` with the inputs of this one step given (R100); the inputs the host had supplied for later
steps stay supplied. -/
def tickWith (keys : Config.Keys) (rnd : Byte) (s : State) : State × Result :=
  let r := tick { s with keyInputs := [keys], rndInputs := [rnd] }
  ({ r.1 with keyInputs := s.keyInputs, rndInputs := s.rndInputs }, r.2)

/-- One timer after a `TimerTick`: decremented by 1, floored at 0 (R217). -/
def countDown (b : Byte) : Byte := if b.toNat > 0 then b - 1 else b

/-- `TimerTick` (R217). -/
def timerTick (s : State) : State := (s.setDt (countDown s.dt)).setSt (countDown s.st)

/-- `LoadProgram(bytes)` (R218): "fails with ProgramTooLarge if length exceeds ... 3584", else the bytes are copied to
0x200 and nothing else changes. -/
def loadProgram (bytes : List Byte) (s : State) : State × Result :=
  if bytes.length > Config.progMax then (s, .err .programTooLarge)
  else (s.setMem (s.mem.writeBytes Config.progBase bytes), .ok)

/-- `Reset` (R230) of a machine with its parameters: the State Store as `State.reset` has it, memory below 0x200 at the
machine's own `LOW_MEM_IMAGE`; the inputs are not state and are left alone (R42). -/
def resetStore (s : State) : State :=
  { State.reset with
    mem := s.params.lowMem
    params := s.params
    keyInputs := s.keyInputs
    keySamples := s.keySamples
    rndInputs := s.rndInputs
    rndSamples := s.rndSamples }

/-- The framebuffer read (R219): "The value is `disp`". -/
def framebuffer (s : State) : Display := s.display

/-- The sound signal (R220): `beep = (ST > 0)`. -/
def beep (s : State) : Bool := decide (s.st.toNat > 0)

/-- A move of the host (R215, R224). A `Tick` carries the values of the inputs `keys` and `rnd` of that step. -/
inductive HostOp where
  | reset
  | loadProgram (bytes : List Byte)
  | tick (keys : Config.Keys) (rnd : Byte)
  | timerTick
  deriving DecidableEq, Repr

/-- One operation of the host, atomic (R215), and its result (R15). -/
def perform (op : HostOp) (s : State) : State × Result :=
  match op with
  | .reset => (resetStore s, .ok)
  | .loadProgram bytes => loadProgram bytes s
  | .tick keys rnd => tickWith keys rnd s
  | .timerTick => (timerTick s, .ok)

/-- The operations of the host one after another, in any order and any number (R216): every interleaving of `TimerTick`
with the steps is a value of `ops`. DESIGN CHOICE (R19 leaves the end of a run to the model; assumption 19): the run ends
with the list, and an operation that returns an error does not end it. -/
def performAll (ops : List HostOp) (s : State) : State := ops.foldl (fun s op => (perform op s).1) s

end Sys2Proof.Machine
end

