-- ==== Sys2Proof/Safety.lean ====
section
/-! DEFINITION. The terms the statements use: the invariant of the machine, what an instruction may write, and what it
means that everything else is unchanged. -/

namespace Sys2Proof.Machine

/-- The invariant: memory keeps its canonical form; `pc` is at most 0x10FE, "The largest value any rule can put into
`pc`" (R26); every stack entry is an address some `CALL` can push, at most 4096 (R124); the parameters obey their
constraint (D4). That `sp` is in [0,16] (R39) is its type. -/
structure Inv (s : State) : Prop where
  mem_wf : s.mem.wf = true
  pc_le : s.pc.toNat ≤ 0x10FE
  stack_le : ∀ k : Fin 16, (s.stack[k.val]).toNat ≤ 0x1000
  params_wf : paramsWf s.params = true

/-- The parts of the state other than the general registers and `pc`; `keys` and `rnd` are the host's inputs. -/
inductive Part where
  | index
  | stack
  | display
  | dt
  | st
  | mem
  | keys
  | rnd
  deriving DecidableEq, Repr

/-- The frame: `t` holds what `s` holds in every general register but those of `rs`, in every part but those of `ps`,
and in the parameters. It says nothing of `pc`. -/
structure Keeps (rs : List Reg) (ps : List Part) (s t : State) : Prop where
  regs : ∀ r, r ∉ rs → t.reg r = s.reg r
  index : .index ∉ ps → t.i = s.i
  stack : .stack ∉ ps → t.sp = s.sp ∧ ∀ k : Fin 16, t.stack[k.val] = s.stack[k.val]
  display : .display ∉ ps → ∀ px py, t.pixel px py = s.pixel px py
  dt : .dt ∉ ps → t.dt = s.dt
  st : .st ∉ ps → t.st = s.st
  mem : .mem ∉ ps → ∀ a, t.mem.read a = s.mem.read a
  keys : .keys ∉ ps → t.keyInputs = s.keyInputs ∧ t.keySamples = s.keySamples
  rnd : .rnd ∉ ps → t.rndInputs = s.rndInputs ∧ t.rndSamples = s.rndSamples
  params : t.params = s.params

/-- The general registers an instruction may write: its destination, and VF for the six flag-writing instructions of
R33. -/
def regsWritten : Instr → List Reg
  | .ldImm x _ | .addImm x _ | .rnd x _ | .ldVxDt x | .ldVxK x => [x]
  | .ldReg x _ | .orReg x _ | .andReg x _ | .xorReg x _ => [x]
  | .addReg x _ | .subReg x _ | .subnReg x _ | .shr x | .shl x => [x, 15]
  | .drw _ _ _ => [15]
  | .ldVxMem x => (List.finRange 16).filter (· ≤ x)
  | .cls | .ret | .sys _ | .jp _ | .call _ | .jpV0 _ => []
  | .seImm _ _ | .sneImm _ _ | .seReg _ _ | .sneReg _ _ | .skp _ | .sknp _ => []
  | .ldI _ | .ldDtVx _ | .ldStVx _ | .addIVx _ | .ldFVx _ | .ldBVx _ | .ldMemVx _ => []

/-- The other parts an instruction may write (R28, R30, R31, R32, R50), and the host inputs it uses up (R109). -/
def partsWritten : Instr → List Part
  | .cls | .drw _ _ _ => [.display]
  | .ret | .call _ => [.stack]
  | .ldI _ | .addIVx _ | .ldFVx _ => [.index]
  | .ldDtVx _ => [.dt]
  | .ldStVx _ => [.st]
  | .ldBVx _ | .ldMemVx _ => [.mem]
  | .skp _ | .sknp _ | .ldVxK _ => [.keys]
  | .rnd _ _ => [.rnd]
  | .sys _ | .jp _ | .jpV0 _ | .seImm _ _ | .sneImm _ _ | .seReg _ _ | .sneReg _ _ => []
  | .ldImm _ _ | .addImm _ _ | .ldVxDt _ | .ldVxMem _ => []
  | .ldReg _ _ | .orReg _ _ | .andReg _ _ | .xorReg _ _ => []
  | .addReg _ _ | .subReg _ _ | .subnReg _ _ | .shr _ | .shl _ => []

/-- The sprite of `n` rows at `I` has a 1 bit over the pixel: bit `7 - c` of the byte at `I + r`, for some row `r`
and column `c`, at `((V[x] + c) mod 64, (V[y] + r) mod 32)` (R171, R172). -/
def covers (s : State) (x y : Reg) (n : Nat) (px : Fin 64) (py : Fin 32) : Prop :=
  ∃ r < n, ∃ c < 8, (s.mem.read (s.i.toNat + r)).getLsbD (7 - c) = true ∧
    px.val = ((s.reg x).toNat + c) % 64 ∧ py.val = ((s.reg y).toNat + r) % 32

/-- The outcome with a function applied to the next state: how two runs that differ in one part are compared. -/
def mapNext (f : State → State) : Out → Out
  | .next t => .next (f t)
  | .fault e => .fault e
  | .refused r => .refused r

/-- A safe run: `k` steps of the machine, none of which fails. DESIGN CHOICE (assumption 19): the end of a run "is not
defined by the source" and R19 leaves it to the model; a run is a given number of steps. -/
def RunsSafely (k : Nat) (s : State) : Prop :=
  match k with
  | 0 => True
  | k + 1 => ∃ t, step s = .next t ∧ RunsSafely k t

end Sys2Proof.Machine
end

