-- ==== Sys2Proof/Certificates/Slice0/Obligations.lean ====
section
/-! DEFINITION. The statements for the provers: each says which rule or section of the spec it formalises. Where it
rests on a decision or an inference of the spec's own (D1 to D32, [derived]), or on a choice of the model, its
docstring says so and names it. -/

open Sys2Proof Sys2Proof.Machine

/-! ### Decoding and encoding -/

/-- A few opcodes written out from R80 and from T7, one at least per family. The opcode values of families 0, E and F
are the spec's general knowledge (D5; assumption 6). -/
def Obligations.DecodesSampleWords : Prop :=
  decode false 0x00E0#16 = .instr .cls ∧ decode false 0x00EE#16 = .instr .ret ∧
  decode false 0x00E1#16 = .instr (.sys 0x0E1#12) ∧ decode false 0x1ABC#16 = .instr (.jp 0xABC#12) ∧
  decode false 0x3055#16 = .instr (.seImm 0 0x55#8) ∧ decode false 0xA2F0#16 = .instr (.ldI 0x2F0#12) ∧
  decode false 0x8AB7#16 = .instr (.subnReg 10 11) ∧ decode false 0x8018#16 = .unknown 0x8018#16 ∧
  decode false 0xD125#16 = .instr (.drw 1 2 5) ∧ decode false 0xE39E#16 = .instr (.skp 3) ∧
  decode false 0xF365#16 = .instr (.ldVxMem 3)

/-- The opcode map, row by row, with every value of every operand field and of every ignored field. It rests on the
spec's decisions D5 to D10 (assumption 6), as R80 marks its rows. -/
def Obligations.OpcodeMapRows : Prop :=
  (decode false 0x00E0#16 = .instr .cls ∧ decode false 0x00EE#16 = .instr .ret) ∧
  (∀ nnn : Addr, nnn ≠ 0x0E0#12 → nnn ≠ 0x0EE#12 → decode false (0x0#4 ++ nnn) = .instr (.sys nnn)) ∧
  (∀ nnn : Addr, decode false (0x1#4 ++ nnn) = .instr (.jp nnn) ∧ decode false (0x2#4 ++ nnn) = .instr (.call nnn) ∧
    decode false (0xA#4 ++ nnn) = .instr (.ldI nnn) ∧ decode false (0xB#4 ++ nnn) = .instr (.jpV0 nnn)) ∧
  (∀ (x : Fin 16) (kk : Byte),
    decode false (0x3#4 ++ BitVec.ofNat 4 x.val ++ kk) = .instr (.seImm x kk) ∧
    decode false (0x4#4 ++ BitVec.ofNat 4 x.val ++ kk) = .instr (.sneImm x kk) ∧
    decode false (0x6#4 ++ BitVec.ofNat 4 x.val ++ kk) = .instr (.ldImm x kk) ∧
    decode false (0x7#4 ++ BitVec.ofNat 4 x.val ++ kk) = .instr (.addImm x kk) ∧
    decode false (0xC#4 ++ BitVec.ofNat 4 x.val ++ kk) = .instr (.rnd x kk)) ∧
  (∀ x y n : Fin 16,
    decode false (0x5#4 ++ BitVec.ofNat 4 x.val ++ BitVec.ofNat 4 y.val ++ BitVec.ofNat 4 n.val) = .instr (.seReg x y) ∧
    decode false (0x9#4 ++ BitVec.ofNat 4 x.val ++ BitVec.ofNat 4 y.val ++ BitVec.ofNat 4 n.val) = .instr (.sneReg x y) ∧
    decode false (0xD#4 ++ BitVec.ofNat 4 x.val ++ BitVec.ofNat 4 y.val ++ BitVec.ofNat 4 n.val) = .instr (.drw x y n)) ∧
  (∀ x y : Fin 16,
    decode false (0x8#4 ++ BitVec.ofNat 4 x.val ++ BitVec.ofNat 4 y.val ++ 0x0#4) = .instr (.ldReg x y) ∧
    decode false (0x8#4 ++ BitVec.ofNat 4 x.val ++ BitVec.ofNat 4 y.val ++ 0x1#4) = .instr (.orReg x y) ∧
    decode false (0x8#4 ++ BitVec.ofNat 4 x.val ++ BitVec.ofNat 4 y.val ++ 0x2#4) = .instr (.andReg x y) ∧
    decode false (0x8#4 ++ BitVec.ofNat 4 x.val ++ BitVec.ofNat 4 y.val ++ 0x3#4) = .instr (.xorReg x y) ∧
    decode false (0x8#4 ++ BitVec.ofNat 4 x.val ++ BitVec.ofNat 4 y.val ++ 0x4#4) = .instr (.addReg x y) ∧
    decode false (0x8#4 ++ BitVec.ofNat 4 x.val ++ BitVec.ofNat 4 y.val ++ 0x5#4) = .instr (.subReg x y) ∧
    decode false (0x8#4 ++ BitVec.ofNat 4 x.val ++ BitVec.ofNat 4 y.val ++ 0x6#4) = .instr (.shr x) ∧
    decode false (0x8#4 ++ BitVec.ofNat 4 x.val ++ BitVec.ofNat 4 y.val ++ 0x7#4) = .instr (.subnReg x y) ∧
    decode false (0x8#4 ++ BitVec.ofNat 4 x.val ++ BitVec.ofNat 4 y.val ++ 0xE#4) = .instr (.shl x)) ∧
  (∀ x : Fin 16,
    decode false (0xE#4 ++ BitVec.ofNat 4 x.val ++ 0x9E#8) = .instr (.skp x) ∧
    decode false (0xE#4 ++ BitVec.ofNat 4 x.val ++ 0xA1#8) = .instr (.sknp x) ∧
    decode false (0xF#4 ++ BitVec.ofNat 4 x.val ++ 0x07#8) = .instr (.ldVxDt x) ∧
    decode false (0xF#4 ++ BitVec.ofNat 4 x.val ++ 0x0A#8) = .instr (.ldVxK x) ∧
    decode false (0xF#4 ++ BitVec.ofNat 4 x.val ++ 0x15#8) = .instr (.ldDtVx x) ∧
    decode false (0xF#4 ++ BitVec.ofNat 4 x.val ++ 0x18#8) = .instr (.ldStVx x) ∧
    decode false (0xF#4 ++ BitVec.ofNat 4 x.val ++ 0x1E#8) = .instr (.addIVx x) ∧
    decode false (0xF#4 ++ BitVec.ofNat 4 x.val ++ 0x29#8) = .instr (.ldFVx x) ∧
    decode false (0xF#4 ++ BitVec.ofNat 4 x.val ++ 0x33#8) = .instr (.ldBVx x) ∧
    decode false (0xF#4 ++ BitVec.ofNat 4 x.val ++ 0x55#8) = .instr (.ldMemVx x) ∧
    decode false (0xF#4 ++ BitVec.ofNat 4 x.val ++ 0x65#8) = .instr (.ldVxMem x))

/-- R89 [derived]: decoding the encoding of any well-formed instruction gives it back, with every operand at every
value and whichever value `STRICT_XY0` has. -/
def Obligations.DecodeEncodeRoundTrip : Prop :=
  ∀ (strict : Bool) (i : Instr), i.wf = true → decode strict (encode i) = .instr i

/-- R89 [derived]: "Decoding then encoding gives the same opcode back except for opcodes with a non-zero ignored field",
which come back in canonical form; an unknown opcode comes back as it is; and the decoder answers well-formed
instructions only. -/
def Obligations.EncodeDecodeCanonical : Prop :=
  ∀ (strict : Bool) (op : Word),
    match decode strict op with
    | .instr i => i.wf = true ∧ encode i = canonical op
    | .unknown raw => encodeVariant (.unknown raw) = op

/-- The opcodes that are `Unknown` are those of the table of R83 [derived, D10] and carry the whole opcode; with
`STRICT_XY0` also 5xyN and 9xyN with N not 0 (D8). The opcode is read as a number here: its nibbles are digits. -/
def Obligations.UnknownOpcodesExactly : Prop :=
  ∀ (strict : Bool) (op raw : Word), decode strict op = .unknown raw ↔ raw = op ∧
    (op.toNat / 4096 = 8 ∧ 8 ≤ op.toNat % 16 ∧ op.toNat % 16 ≠ 0xE ∨
     op.toNat / 4096 = 0xE ∧ op.toNat % 256 ≠ 0x9E ∧ op.toNat % 256 ≠ 0xA1 ∨
     op.toNat / 4096 = 0xF ∧ op.toNat % 256 ∉ [0x07, 0x0A, 0x15, 0x18, 0x1E, 0x29, 0x33, 0x55, 0x65] ∨
     strict = true ∧ (op.toNat / 4096 = 5 ∨ op.toNat / 4096 = 9) ∧ op.toNat % 16 ≠ 0)

/-! ### The step -/

/-- R101 steps 2 to 4: where a fetch is possible, the two bytes at `pc` and `pc + 1`, the lower one first, are decoded
and the instruction they stand for is executed; the step adds nothing around its meaning. The bound of the fetch is
D14. -/
def Obligations.StepRunsDecodedInstruction : Prop :=
  ∀ (s : State) (i : Instr), s.pc.toNat ≤ 4094 →
    decode s.params.strictXY0 (s.mem.read s.pc.toNat ++ s.mem.read (s.pc.toNat + 1)) = .instr i →
    step s = exec i s

/-- R102 (D14, assumption 7): a step with `pc > 4094` fails with `OutOfBoundsAddress`. -/
def Obligations.StepFetchOutOfBounds : Prop :=
  ∀ s : State, s.pc.toNat > 4094 → step s = .fault .outOfBoundsAddress

/-- R107 [derived]: an opcode that is no instruction makes the step fail with the opcode as the error's data. -/
def Obligations.StepUnknownOpcode : Prop :=
  ∀ (s : State) (raw : Word), s.pc.toNat ≤ 4094 →
    decode s.params.strictXY0 (s.mem.read s.pc.toNat ++ s.mem.read (s.pc.toNat + 1)) = .unknown raw →
    step s = .fault (.unimplementedOpcode raw)

/-- R201, R202, R111 (with D14, D27; assumption 7): the errors of a step, each with its cause, and no other one; so
`ProgramTooLarge` is never a step's. -/
def Obligations.StepErrorsExactly : Prop :=
  ∀ (s : State) (e : Fault), step s = .fault e ↔
    (s.pc.toNat > 4094 ∧ e = .outOfBoundsAddress) ∨
    (s.pc.toNat ≤ 4094 ∧
      match decode s.params.strictXY0 (s.mem.read s.pc.toNat ++ s.mem.read (s.pc.toNat + 1)) with
      | .unknown raw => e = .unimplementedOpcode raw
      | .instr .ret => s.sp.val = 0 ∧ e = .stackUnderflow
      | .instr (.call _) => s.sp.val = 16 ∧ e = .stackOverflow
      | .instr (.drw _ _ n) => n.val > 0 ∧ s.i.toNat + n.val - 1 > 4095 ∧ e = .outOfBoundsAddress
      | .instr (.ldBVx _) => s.i.toNat + 2 > 4095 ∧ e = .outOfBoundsAddress
      | .instr (.ldMemVx x) => s.i.toNat + x.val > 4095 ∧ e = .outOfBoundsAddress
      | .instr (.ldVxMem x) => s.i.toNat + x.val > 4095 ∧ e = .outOfBoundsAddress
      | .instr _ => False)

/-- Every step answers a next state or an error value of R200; the model refuses nothing (R84: every opcode is an
instruction or `Unknown`). -/
def Obligations.StepNeverRefuses : Prop :=
  ∀ (s : State) (r : Refusal), step s ≠ .refused r

/-- R25, R121, R123 to R125, R130 to R135, R181: how an executed instruction changes `pc`, for every instruction. `CALL`,
`RET` and the skip conditions are read in the state before. The full sum of `JP V0,nnn` is D18 (assumption 7), the index
of the entry `RET` takes D13 (assumption 13), the key choice of the skips D21 (assumption 11), the wait D23
(assumption 10). -/
def Obligations.PcAfterInstruction : Prop :=
  ∀ (s t : State) (i : Instr), s.pc.toNat ≤ 4094 → exec i s = .next t →
    match i with
    | .jp nnn => t.pc.toNat = nnn.toNat
    | .call nnn => t.pc.toNat = nnn.toNat
    | .jpV0 nnn => t.pc.toNat = nnn.toNat + (s.reg 0).toNat
    | .ret => ∃ k : Fin 16, k.val + 1 = s.sp.val ∧ t.pc = s.stack[k.val]
    | .seImm x kk => t.pc.toNat = s.pc.toNat + if s.reg x = kk then 4 else 2
    | .sneImm x kk => t.pc.toNat = s.pc.toNat + if s.reg x = kk then 2 else 4
    | .seReg x y => t.pc.toNat = s.pc.toNat + if s.reg x = s.reg y then 4 else 2
    | .sneReg x y => t.pc.toNat = s.pc.toNat + if s.reg x = s.reg y then 2 else 4
    | .skp x => t.pc.toNat = s.pc.toNat + if pressed s.keys (lowNibble (s.reg x)) then 4 else 2
    | .sknp x => t.pc.toNat = s.pc.toNat + if pressed s.keys (lowNibble (s.reg x)) then 2 else 4
    | .ldVxK _ => t.pc.toNat = s.pc.toNat + if anyPressed s.keys then 2 else 0
    | _ => t.pc.toNat = s.pc.toNat + 2

/-- R203, R15: an operation of the host that returns an error "leaves the State Store exactly as it was". The state here
is the whole state of the model, so `pc`, the stack and the registers hold what they held, nothing is saved and no handler
is entered. That a failed `LoadProgram` changes nothing is D29 (R218; assumption 14). -/
def Obligations.ErrorLeavesStateUnchanged : Prop :=
  ∀ (op : HostOp) (s : State) (e : Fault), (perform op s).2 = .err e → (perform op s).1 = s

/-- R205: a retry is another `Tick`; the state being unchanged, it fails again with the same error whatever the inputs
`keys` and `rnd` of the retry are. -/
def Obligations.RetryFailsAgain : Prop :=
  ∀ (keys keys' : Config.Keys) (rnd rnd' : Byte) (s : State) (e : Fault), (tickWith keys rnd s).2 = .err e →
    tickWith keys' rnd' (tickWith keys rnd s).1 = (s, .err e)

/-- R108 (D23; assumption 10): a `Tick` returns `Waiting` exactly where it fetches `LD Vx,K` and no key is pressed, and
then nothing of the State Store changed, `pc` included. (The count of samples is the model's own, assumption 1.) -/
def Obligations.TickWaitsExactly : Prop :=
  ∀ (keys : Config.Keys) (rnd : Byte) (s : State),
    ((tickWith keys rnd s).2 = .waiting ↔ s.pc.toNat ≤ 4094 ∧
      (∃ x, decode s.params.strictXY0 (s.mem.read s.pc.toNat ++ s.mem.read (s.pc.toNat + 1)) = .instr (.ldVxK x)) ∧
      ∀ k : Fin 16, keys[k.val] = false) ∧
    ((tickWith keys rnd s).2 = .waiting →
      Keeps [] [.keys] s (tickWith keys rnd s).1 ∧ (tickWith keys rnd s).1.pc = s.pc)

/-! ### Reset and the invariant -/

/-- R42, R230: the state after the operation `Reset`, whatever the parameters of the machine are, and `State.reset`, whose
parameters are the default ones. Memory below 0x200 is the parameter `LOW_MEM_IMAGE`, by default the font and zeros
(D3, assumption 4); `pc` is D2 (assumption 5). The inputs are not state and stay (R42). -/
def Obligations.ResetValues : Prop :=
  (∀ s : State, ∃ t, perform .reset s = (t, .ok) ∧ t.keyInputs = s.keyInputs ∧ t.rndInputs = s.rndInputs) ∧
  ∀ s t : State, (perform .reset s = (t, .ok) ∨ s.params = Config.Params.default ∧ t = State.reset) →
    (∀ r, t.reg r = 0#8) ∧ t.i = 0#16 ∧ t.pc = 0x200#16 ∧ t.sp = 0 ∧ (∀ k : Fin 16, t.stack[k.val] = 0#16) ∧
    (∀ px py, t.pixel px py = false) ∧ t.dt = 0#8 ∧ t.st = 0#8 ∧ beep t = false ∧ t.params = s.params ∧
    (∀ a, a < 0x200 → t.mem.read a = Memory.read s.params.lowMem a) ∧
    (paramsWf s.params = true → ∀ a, 0x200 ≤ a → t.mem.read a = 0#8) ∧
    (s.params = Config.Params.default →
      (∀ a, a < 80 → t.mem.read a = fontImage.getD a 0#8) ∧ ∀ a, 80 ≤ a → t.mem.read a = 0#8)

/-- The state after reset meets the invariant. -/
def Obligations.ResetMeetsInvariant : Prop := Inv State.reset

/-- R26 and R39 (D12, D18 for the bounds on the stack entries and on `pc`; assumption 8 for the canonical memory): from
every state that meets the invariant a step gives a state that meets it. -/
def Obligations.StepKeepsInvariant : Prop :=
  ∀ s t : State, Inv s → step s = .next t → Inv t

/-- R216 (D28), R224: every sequence of operations of the host, in any order and with any inputs, keeps the invariant,
and the parameters stay what they are. -/
def Obligations.HostOperationsKeepInvariant : Prop :=
  ∀ (ops : List HostOp) (s : State), Inv s → Inv (performAll ops s) ∧ (performAll ops s).params = s.params

/-- R232 [derived; D2, D14; assumptions 5, 7], on the one state after reset: with nothing loaded each of 1792 steps after
`Reset` succeeds and advances `pc` by 2, and the step after them fails. -/
def Obligations.EmptyMemoryRun : Prop :=
  (∀ k ≤ 1792, Sys2Proof.core.run k State.reset = .next (State.reset.setPc (BitVec.ofNat 16 (0x200 + 2 * k)))) ∧
  Sys2Proof.core.run 1793 State.reset = .fault .outOfBoundsAddress

/-! ### Rules of the whole machine -/

/-- The frame of every instruction (R22, R28, R30, R31, R32, R33, R50, R109): where it completes, it leaves every
register but those of `regsWritten`, every part but those of `partsWritten` (both in Sys2Proof/Safety.lean) and the
parameters unchanged. That `LD [I],Vx` and `LD Vx,[I]` leave `I` is D19 and that `ADD I,Vx` leaves VF is D17
(assumption 12). What the forms that write memory, the stack or the display leave of it is in `LdBStores`, `LdMemStores`,
`RetPops`, `CallPushes`, `ClsClearsDisplay` and `DrwBlits`. -/
def Obligations.FrameOfEveryInstruction : Prop :=
  ∀ (i : Instr) (s t : State), exec i s = .next t → Keeps (regsWritten i) (partsWritten i) s t

/-- R33 (D11 where the destination is VF itself, assumption 9): after each of the six flag-writing instructions VF is
0 or 1, whatever the operands. -/
def Obligations.FlagIsZeroOrOne : Prop :=
  ∀ (x y : Reg) (n : Fin 16) (s t : State),
    (exec (.addReg x y) s = .next t ∨ exec (.subReg x y) s = .next t ∨ exec (.subnReg x y) s = .next t ∨
      exec (.shr x) s = .next t ∨ exec (.shl x) s = .next t ∨ exec (.drw x y n) s = .next t) →
    t.reg 15 = 0#8 ∨ t.reg 15 = 1#8

/-- R109 [derived]: "`keys` is read only by `SKP`, `SKNP` and `LD Vx,K`; `rnd` only by `RND`": every other instruction
does the same whatever inputs the host supplies. -/
def Obligations.InputsReadOnlyBy : Prop :=
  ∀ (i : Instr) (s : State) (ks : List Config.Keys) (kn : Nat) (rs : List Byte) (rn : Nat),
    ((∀ x, i ≠ .skp x ∧ i ≠ .sknp x ∧ i ≠ .ldVxK x) →
      exec i { s with keyInputs := ks, keySamples := kn } =
        mapNext (fun t => { t with keyInputs := ks, keySamples := kn }) (exec i s)) ∧
    ((∀ x kk, i ≠ .rnd x kk) →
      exec i { s with rndInputs := rs, rndSamples := rn } =
        mapNext (fun t => { t with rndInputs := rs, rndSamples := rn }) (exec i s))

/-- R32: the two timers. `LD DT,Vx` and `LD ST,Vx` write them, `LD Vx,DT` reads `DT`, no other instruction writes either
and none reads `ST`; `TimerTick` takes 1 from each unless it is 0; `beep` is true exactly when `ST > 0`. -/
def Obligations.TimerRegisterRules : Prop :=
  (∀ (x : Reg) (s : State), (∃ t, exec (.ldDtVx x) s = .next t ∧ t.dt = s.reg x) ∧
    (∃ t, exec (.ldStVx x) s = .next t ∧ t.st = s.reg x) ∧ ∃ t, exec (.ldVxDt x) s = .next t ∧ t.reg x = s.dt) ∧
  (∀ (i : Instr) (s t : State), exec i s = .next t →
    ((∀ x, i ≠ .ldDtVx x) → t.dt = s.dt) ∧ ((∀ x, i ≠ .ldStVx x) → t.st = s.st)) ∧
  (∀ (i : Instr) (s : State) (b : Byte), (∀ x, i ≠ .ldStVx x) →
    exec i (s.setSt b) = mapNext (fun t => t.setSt b) (exec i s)) ∧
  (∀ (x : Reg) (s : State) (b : Byte), exec (.ldStVx x) (s.setSt b) = exec (.ldStVx x) s) ∧
  (∀ s : State, (timerTick s).dt.toNat = s.dt.toNat - 1 ∧ (timerTick s).st.toNat = s.st.toNat - 1) ∧
  (∀ s : State, beep s = true ↔ s.st.toNat > 0)

/-- R50: besides the fetch only `DRW Vx,Vy,n` and `LD Vx,[I]` read memory, and only `LD B,Vx` and `LD [I],Vx` write it.
So every other instruction does the same whatever memory holds, and leaves memory as it is. -/
def Obligations.MemoryUsedOnlyBy : Prop :=
  ∀ (i : Instr) (s : State) (m : Memory),
    (∀ x y n, i ≠ .drw x y n ∧ i ≠ .ldVxMem x ∧ i ≠ .ldBVx x ∧ i ≠ .ldMemVx x) →
    exec i (s.setMem m) = mapNext (fun t => t.setMem m) (exec i s)

/-- R64 [derived]: a store is seen by the very next fetch. `LD [I],Vx` with `I` at the following instruction and x at
least 1 puts V0 and V1 there as the opcode that is fetched next. -/
def Obligations.StoreSeenByNextFetch : Prop :=
  ∀ (x : Reg) (s t : State), 1 ≤ x.val → s.i = s.pc + 2 → exec (.ldMemVx x) s = .next t →
    t.mem.read t.pc.toNat ++ t.mem.read (t.pc.toNat + 1) = (s.reg 0 ++ s.reg 1 : BitVec 16)

/-! ### Control flow -/

/-- R120: `CLS` turns every pixel off and changes nothing else but `pc`. -/
def Obligations.ClsClearsDisplay : Prop :=
  ∀ s : State, ∃ t, exec .cls s = .next t ∧ (∀ px py, t.pixel px py = false) ∧ t.pc = s.pc + 2 ∧
    Keeps [] [.display] s t

/-- R121, R30 (D12, D13; assumption 13): `RET` fails on an empty stack; otherwise it takes one from `sp` and jumps to
the entry at the new `sp`, which stays in the stack. -/
def Obligations.RetPops : Prop :=
  ∀ s : State, (s.sp.val = 0 → exec .ret s = .fault .stackUnderflow) ∧
    ∀ k : Fin 16, s.sp.val = k.val + 1 → ∃ t, exec .ret s = .next t ∧ t.pc = s.stack[k.val] ∧ t.sp.val = k.val ∧
      (∀ j : Fin 16, t.stack[j.val] = s.stack[j.val]) ∧ Keeps [] [.stack] s t

/-- R122: `SYS nnn` does nothing but advance `pc`. -/
def Obligations.SysDoesNothing : Prop :=
  ∀ (nnn : Addr) (s : State), ∃ t, exec (.sys nnn) s = .next t ∧ t.pc = s.pc + 2 ∧ Keeps [] [] s t

/-- R123 and R125 (D14 to D16, D18 on the corners; assumption 7): the jumps go to `nnn` and to `nnn + V[0]`, the full
sum, and change nothing else. -/
def Obligations.JumpTargets : Prop :=
  ∀ (nnn : Addr) (s : State),
    (∃ t, exec (.jp nnn) s = .next t ∧ t.pc.toNat = nnn.toNat ∧ Keeps [] [] s t) ∧
    ∃ t, exec (.jpV0 nnn) s = .next t ∧ t.pc.toNat = nnn.toNat + (s.reg 0).toNat ∧ Keeps [] [] s t

/-- R124, R30 (D12, D13; assumption 13): `CALL` fails on a full stack; otherwise it writes the address after itself into
entry `sp`, adds one to `sp` and jumps. -/
def Obligations.CallPushes : Prop :=
  ∀ (nnn : Addr) (s : State), (s.sp.val = 16 → exec (.call nnn) s = .fault .stackOverflow) ∧
    ∀ k : Fin 16, s.sp.val = k.val → ∃ t, exec (.call nnn) s = .next t ∧ t.pc.toNat = nnn.toNat ∧
      t.sp.val = k.val + 1 ∧ t.stack[k.val] = s.pc + 2 ∧ (∀ j : Fin 16, j ≠ k → t.stack[j.val] = s.stack[j.val]) ∧
      Keeps [] [.stack] s t

/-- T4 (R121, R124; C1, D12, D13, assumption 13): "`CALL nnn` then `RET` restores pc to the instruction following the
CALL, for nesting depth up to 16; depth 17 fails StackOverflow", whatever other instructions ran in between, calls of the
subroutine's own among them, as long as `sp` and the one entry the `CALL` wrote are as it left them. -/
def Obligations.CallThenRetReturns : Prop :=
  ∀ (nnn : Addr) (s : State),
    (s.sp.val = 16 → exec (.call nnn) s = .fault .stackOverflow) ∧
    ∀ k : Fin 16, s.sp.val = k.val → ∃ t, exec (.call nnn) s = .next t ∧
      ∀ u : State, u.sp = t.sp → u.stack[k.val] = t.stack[k.val] →
        ∃ w, exec .ret u = .next w ∧ w.pc = s.pc + 2 ∧ w.sp = s.sp

/-! ### Conditional skips -/

/-- R130 with its encoding: `SE Vx,kk` skips exactly where Vx equals kk and changes nothing but `pc`; its opcode is
3xkk. -/
def Obligations.SeImmSkipsIfEqual : Prop :=
  ∀ (x : Fin 16) (kk : Byte),
    (∀ strict, decode strict (0x3#4 ++ BitVec.ofNat 4 x.val ++ kk) = .instr (.seImm x kk)) ∧
    ∀ s : State, ∃ t, exec (.seImm x kk) s = .next t ∧ Keeps [] [] s t ∧
      (s.reg x = kk → t.pc = s.pc + 4) ∧ (s.reg x ≠ kk → t.pc = s.pc + 2)

/-- R131, R132, R133: the other three compares. (Their opcodes, in `OpcodeMapRows`, rest on D6 and D8.) -/
def Obligations.OtherComparesSkip : Prop :=
  ∀ (x y : Reg) (kk : Byte) (s : State),
    (∃ t, exec (.sneImm x kk) s = .next t ∧ Keeps [] [] s t ∧
      (s.reg x ≠ kk → t.pc = s.pc + 4) ∧ (s.reg x = kk → t.pc = s.pc + 2)) ∧
    (∃ t, exec (.seReg x y) s = .next t ∧ Keeps [] [] s t ∧
      (s.reg x = s.reg y → t.pc = s.pc + 4) ∧ (s.reg x ≠ s.reg y → t.pc = s.pc + 2)) ∧
    ∃ t, exec (.sneReg x y) s = .next t ∧ Keeps [] [] s t ∧
      (s.reg x ≠ s.reg y → t.pc = s.pc + 4) ∧ (s.reg x = s.reg y → t.pc = s.pc + 2)

/-- R134, R135, R221 (D21, assumption 11): the key skips, the low four bits of Vx naming the key. The key vector of the
step is the first one the host supplied, where it supplied one, else a free value (assumption 1); a `Tick` with a key
vector uses that one. -/
def Obligations.KeySkips : Prop :=
  ∀ (x : Reg) (s : State) (k : Fin 16), k.val = (s.reg x).toNat % 16 →
    (∃ t, exec (.skp x) s = .next t ∧ Keeps [] [.keys] s t ∧ t.keyInputs = s.keyInputs.tail ∧
      (s.keys[k.val] = true → t.pc = s.pc + 4) ∧ (s.keys[k.val] = false → t.pc = s.pc + 2)) ∧
    (∃ t, exec (.sknp x) s = .next t ∧ Keeps [] [.keys] s t ∧ t.keyInputs = s.keyInputs.tail ∧
      (s.keys[k.val] = false → t.pc = s.pc + 4) ∧ (s.keys[k.val] = true → t.pc = s.pc + 2)) ∧
    (∀ keys rest, s.keyInputs = keys :: rest → s.keys = keys) ∧
    ∀ (keys : Config.Keys) (rnd : Byte), s.pc.toNat ≤ 4094 →
      (decode s.params.strictXY0 s.opcodeAtPc = .instr (.skp x) → (tickWith keys rnd s).2 = .ok ∧
        (tickWith keys rnd s).1.pc = s.pc + if keys[k.val] = true then 4 else 2) ∧
      (decode s.params.strictXY0 s.opcodeAtPc = .instr (.sknp x) → (tickWith keys rnd s).2 = .ok ∧
        (tickWith keys rnd s).1.pc = s.pc + if keys[k.val] = true then 2 else 4)

/-! ### Immediate loads and arithmetic -/

/-- R140, R141: `LD Vx,kk` and `ADD Vx,kk`; the sum is taken modulo 256 and VF is written only where it is the
destination. (Their opcodes, in `OpcodeMapRows`, rest on D6.) -/
def Obligations.ImmediateLoadAndAdd : Prop :=
  ∀ (x : Reg) (kk : Byte) (s : State),
    (∃ t, exec (.ldImm x kk) s = .next t ∧ t.reg x = kk ∧ t.pc = s.pc + 2 ∧ Keeps [x] [] s t) ∧
    ∃ t, exec (.addImm x kk) s = .next t ∧ (t.reg x).toNat = ((s.reg x).toNat + kk.toNat) % 256 ∧
      t.pc = s.pc + 2 ∧ Keeps [x] [] s t

/-- R142: `LD I,nnn`, the address zero-extended. (Its opcode rests on D6.) -/
def Obligations.LdILoadsAddress : Prop :=
  ∀ (nnn : Addr) (s : State), ∃ t, exec (.ldI nnn) s = .next t ∧ t.i.toNat = nnn.toNat ∧ t.pc = s.pc + 2 ∧
    Keeps [] [.index] s t

/-- R143, R222 (D24, assumption 2): `RND Vx,kk` masks the random byte of the step and uses it up. The byte is the first
one the host supplied, where it supplied one, else a free value; a `Tick` with a byte uses that one. -/
def Obligations.RndMasksRandomByte : Prop :=
  ∀ (x : Reg) (kk : Byte) (s : State),
    (∃ t, exec (.rnd x kk) s = .next t ∧ t.reg x = s.rnd &&& kk ∧
      (∀ b rest, s.rndInputs = b :: rest → t.reg x = b &&& kk ∧ t.rndInputs = rest) ∧
      (s.rndInputs = [] → t.reg x = Config.freeRnd s.rndSamples &&& kk ∧ t.rndInputs = []) ∧
      t.rndSamples = s.rndSamples + 1 ∧ t.pc = s.pc + 2 ∧ Keeps [x] [.rnd] s t) ∧
    ∀ (keys : Config.Keys) (b : Byte), s.pc.toNat ≤ 4094 →
      decode s.params.strictXY0 s.opcodeAtPc = .instr (.rnd x kk) →
      (tickWith keys b s).2 = .ok ∧ (tickWith keys b s).1.reg x = b &&& kk

/-! ### Register-register ALU -/

/-- R151, R152, R153 with their encodings: the bitwise instructions, bit by bit; VF is written only where it is the
destination; the opcodes are 8xy1, 8xy2 and 8xy3. -/
def Obligations.BitwiseResults : Prop :=
  ∀ x y : Fin 16,
    (∀ strict,
      decode strict (0x8#4 ++ BitVec.ofNat 4 x.val ++ BitVec.ofNat 4 y.val ++ 0x1#4) = .instr (.orReg x y) ∧
      decode strict (0x8#4 ++ BitVec.ofNat 4 x.val ++ BitVec.ofNat 4 y.val ++ 0x2#4) = .instr (.andReg x y) ∧
      decode strict (0x8#4 ++ BitVec.ofNat 4 x.val ++ BitVec.ofNat 4 y.val ++ 0x3#4) = .instr (.xorReg x y)) ∧
    ∀ s : State,
      (∃ t, exec (.orReg x y) s = .next t ∧ t.pc = s.pc + 2 ∧ Keeps [x] [] s t ∧
        ∀ b, (t.reg x).getLsbD b = ((s.reg x).getLsbD b || (s.reg y).getLsbD b)) ∧
      (∃ t, exec (.andReg x y) s = .next t ∧ t.pc = s.pc + 2 ∧ Keeps [x] [] s t ∧
        ∀ b, (t.reg x).getLsbD b = ((s.reg x).getLsbD b && (s.reg y).getLsbD b)) ∧
      ∃ t, exec (.xorReg x y) s = .next t ∧ t.pc = s.pc + 2 ∧ Keeps [x] [] s t ∧
        ∀ b, (t.reg x).getLsbD b = ((s.reg x).getLsbD b ^^ (s.reg y).getLsbD b)

/-- R150: `LD Vx,Vy`. (Its opcode rests on D5.) -/
def Obligations.LdRegCopies : Prop :=
  ∀ (x y : Reg) (s : State), ∃ t, exec (.ldReg x y) s = .next t ∧ t.reg x = s.reg y ∧ t.pc = s.pc + 2 ∧
    Keeps [x] [] s t

/-- R154, R159 (D11, assumption 9): `ADD Vx,Vy` wraps at 256, VF is 1 exactly where the sum is above 255, and where the
destination is VF the flag is what stays. -/
def Obligations.AddRegResult : Prop :=
  ∀ (x y : Reg) (s : State), ∃ t, exec (.addReg x y) s = .next t ∧
    (x ≠ 15 → (t.reg x).toNat = ((s.reg x).toNat + (s.reg y).toNat) % 256) ∧
    (t.reg 15 = if (s.reg x).toNat + (s.reg y).toNat > 255 then 1#8 else 0#8) ∧
    t.pc = s.pc + 2 ∧ Keeps [x, 15] [] s t

/-- R155, R159 (D11, assumption 9): `SUB Vx,Vy` wraps at 256 and VF is 1 exactly where Vx is not below Vy. -/
def Obligations.SubRegResult : Prop :=
  ∀ (x y : Reg) (s : State), ∃ t, exec (.subReg x y) s = .next t ∧
    (x ≠ 15 → ((t.reg x).toNat : Int) = ((s.reg x).toNat - (s.reg y).toNat : Int) % 256) ∧
    (t.reg 15 = if (s.reg x).toNat ≥ (s.reg y).toNat then 1#8 else 0#8) ∧
    t.pc = s.pc + 2 ∧ Keeps [x, 15] [] s t

/-- R157, R159 (D11, assumption 9): `SUBN Vx,Vy` is the subtraction the other way round. -/
def Obligations.SubnRegResult : Prop :=
  ∀ (x y : Reg) (s : State), ∃ t, exec (.subnReg x y) s = .next t ∧
    (x ≠ 15 → ((t.reg x).toNat : Int) = ((s.reg y).toNat - (s.reg x).toNat : Int) % 256) ∧
    (t.reg 15 = if (s.reg y).toNat ≥ (s.reg x).toNat then 1#8 else 0#8) ∧
    t.pc = s.pc + 2 ∧ Keeps [x, 15] [] s t

/-- R156, R158, R159 (D9, D11; assumption 9): the shifts halve and double Vx, and VF is the bit shifted out. -/
def Obligations.ShiftResults : Prop :=
  ∀ (x : Reg) (s : State),
    (∃ t, exec (.shr x) s = .next t ∧ (x ≠ 15 → (t.reg x).toNat = (s.reg x).toNat / 2) ∧
      (t.reg 15).toNat = (s.reg x).toNat % 2 ∧ t.pc = s.pc + 2 ∧ Keeps [x, 15] [] s t) ∧
    ∃ t, exec (.shl x) s = .next t ∧ (x ≠ 15 → (t.reg x).toNat = 2 * (s.reg x).toNat % 256) ∧
      (t.reg 15).toNat = (s.reg x).toNat / 128 ∧ t.pc = s.pc + 2 ∧ Keeps [x, 15] [] s t

/-! ### Sprites -/

/-- R170 to R174 (D11, D14, D20; assumptions 7, 9, 12): where the sprite bytes lie in memory, `DRW` inverts exactly the
pixels the sprite covers with a 1 bit, and VF is 1 exactly where a lit pixel was turned off. -/
def Obligations.DrwBlits : Prop :=
  ∀ (x y : Reg) (n : Fin 16) (s : State), (n.val = 0 ∨ s.i.toNat + n.val - 1 ≤ 4095) →
    ∃ t, exec (.drw x y n) s = .next t ∧
      (∀ px py, (covers s x y n.val px py → t.pixel px py = !s.pixel px py) ∧
        (¬ covers s x y n.val px py → t.pixel px py = s.pixel px py)) ∧
      (t.reg 15 = 1#8 ↔ ∃ px py, s.pixel px py = true ∧ t.pixel px py = false) ∧
      (t.reg 15 = 0#8 ∨ t.reg 15 = 1#8) ∧ t.pc = s.pc + 2 ∧ Keeps [15] [.display] s t

/-- R170, R56 (D14, assumption 7): `DRW` fails where a sprite byte would lie above address 4095. -/
def Obligations.DrwOutOfBounds : Prop :=
  ∀ (x y : Reg) (n : Fin 16) (s : State), n.val > 0 → s.i.toNat + n.val - 1 > 4095 →
    exec (.drw x y n) s = .fault .outOfBoundsAddress

/-- R174 c [derived; D20]: drawing the same sprite at the same place twice restores the display, and the second draw sets
VF exactly where the first one lit a pixel. The two draws have the same place where the first one left Vx and Vy as they
were, which its write of VF does unless x or y is 15. -/
def Obligations.DrwTwiceRestores : Prop :=
  ∀ (x y : Reg) (n : Fin 16) (s t u : State), exec (.drw x y n) s = .next t → t.reg x = s.reg x → t.reg y = s.reg y →
    exec (.drw x y n) t = .next u →
    (∀ px py, u.pixel px py = s.pixel px py) ∧
    (u.reg 15 = 1#8 ↔ ∃ px py, s.pixel px py = false ∧ t.pixel px py = true)

/-! ### Timers, keys, index, memory -/

/-- R180, R182, R183: the timer transfers. (Their opcodes rest on D5.) -/
def Obligations.TimerTransfers : Prop :=
  ∀ (x : Reg) (s : State),
    (∃ t, exec (.ldVxDt x) s = .next t ∧ t.reg x = s.dt ∧ t.pc = s.pc + 2 ∧ Keeps [x] [] s t) ∧
    (∃ t, exec (.ldDtVx x) s = .next t ∧ t.dt = s.reg x ∧ t.pc = s.pc + 2 ∧ Keeps [] [.dt] s t) ∧
    ∃ t, exec (.ldStVx x) s = .next t ∧ t.st = s.reg x ∧ (beep t = true ↔ (s.reg x).toNat > 0) ∧
      t.pc = s.pc + 2 ∧ Keeps [] [.st] s t

/-- R181, R221 (D23, assumption 10): with a key pressed `LD Vx,K` loads the number of a pressed key, the lowest one where
`KeySelect` is the default; with none pressed it completes nothing, and `pc` stays. The key vector of the step is the
first one the host supplied, where it supplied one, else a free value (assumption 1); a `Tick` with a key vector uses that
one. -/
def Obligations.KeyWait : Prop :=
  ∀ (x : Reg) (s : State),
    ((∃ k : Fin 16, s.keys[k.val] = true) → ∃ t, ∃ k : Fin 16, exec (.ldVxK x) s = .next t ∧
      s.keys[k.val] = true ∧ (t.reg x).toNat = k.val ∧
      (s.params.keySelect = .lowest → ∀ j : Fin 16, j < k → s.keys[j.val] = false) ∧
      t.pc = s.pc + 2 ∧ t.keyInputs = s.keyInputs.tail ∧ Keeps [x] [.keys] s t) ∧
    ((∀ k : Fin 16, s.keys[k.val] = false) → ∃ t, exec (.ldVxK x) s = .next t ∧ t.pc = s.pc ∧
      t.keyInputs = s.keyInputs.tail ∧ Keeps [] [.keys] s t) ∧
    (∀ keys rest, s.keyInputs = keys :: rest → s.keys = keys) ∧
    ∀ (keys : Config.Keys) (rnd : Byte), s.pc.toNat ≤ 4094 →
      decode s.params.strictXY0 s.opcodeAtPc = .instr (.ldVxK x) →
      ((∃ k : Fin 16, keys[k.val] = true) → ∃ k : Fin 16, (tickWith keys rnd s).2 = .ok ∧ keys[k.val] = true ∧
        ((tickWith keys rnd s).1.reg x).toNat = k.val ∧
        (s.params.keySelect = .lowest → ∀ j : Fin 16, j < k → keys[j.val] = false)) ∧
      ((∀ k : Fin 16, keys[k.val] = false) → (tickWith keys rnd s).2 = .waiting ∧
        (tickWith keys rnd s).1.reg x = s.reg x ∧ (tickWith keys rnd s).1.pc = s.pc)

/-- R184 (D17, assumption 12): `ADD I,Vx` wraps at 16 bits, writes no flag and cannot fail. -/
def Obligations.AddIResult : Prop :=
  ∀ (x : Reg) (s : State), ∃ t, exec (.addIVx x) s = .next t ∧ t.i.toNat = (s.i.toNat + (s.reg x).toNat) % 65536 ∧
    t.pc = s.pc + 2 ∧ Keeps [] [.index] s t

/-- R185 (D4, D22; assumptions 3 and 11): `LD F,Vx` points `I` at the sprite of the digit in the low four bits of Vx,
at `FONT_BASE + FONT_STRIDE * digit` where the parameters obey D4; with the default ones, 5 times the digit. -/
def Obligations.LdFPointsAtSprite : Prop :=
  ∀ (x : Reg) (s : State), ∃ t, exec (.ldFVx x) s = .next t ∧ t.pc = s.pc + 2 ∧ Keeps [] [.index] s t ∧
    (paramsWf s.params = true →
      t.i.toNat = s.params.fontBase.toNat + s.params.fontStride * ((s.reg x).toNat % 16)) ∧
    (s.params = Config.Params.default → t.i.toNat = 5 * ((s.reg x).toNat % 16))

/-- R186, R189 (D14, D25; assumptions 7 and 12): `LD B,Vx` stores the three digits of Vx at `I`, `I + 1`, `I + 2`, and
no other byte changes; it fails where `I + 2` is above 4095. -/
def Obligations.LdBStores : Prop :=
  ∀ (x : Reg) (s : State),
    (s.i.toNat + 2 > 4095 → exec (.ldBVx x) s = .fault .outOfBoundsAddress) ∧
    (s.i.toNat + 2 ≤ 4095 → ∃ t, exec (.ldBVx x) s = .next t ∧
      ((t.mem.read s.i.toNat).toNat * 100 + (t.mem.read (s.i.toNat + 1)).toNat * 10 +
        (t.mem.read (s.i.toNat + 2)).toNat = (s.reg x).toNat) ∧
      (t.mem.read s.i.toNat).toNat ≤ 2 ∧ (t.mem.read (s.i.toNat + 1)).toNat ≤ 9 ∧
      (t.mem.read (s.i.toNat + 2)).toNat ≤ 9 ∧
      (∀ a, a < s.i.toNat ∨ s.i.toNat + 2 < a → t.mem.read a = s.mem.read a) ∧
      t.pc = s.pc + 2 ∧ Keeps [] [.mem] s t)

/-- R187, R189 (D14, D19; assumptions 7 and 12): `LD [I],Vx` stores V0 to Vx at `I` to `I + x`, no other byte changes and
`I` stays; it fails where `I + x` is above 4095. -/
def Obligations.LdMemStores : Prop :=
  ∀ (x : Reg) (s : State),
    (s.i.toNat + x.val > 4095 → exec (.ldMemVx x) s = .fault .outOfBoundsAddress) ∧
    (s.i.toNat + x.val ≤ 4095 → ∃ t, exec (.ldMemVx x) s = .next t ∧
      (∀ k : Reg, k ≤ x → t.mem.read (s.i.toNat + k.val) = s.reg k) ∧
      (∀ a, a < s.i.toNat ∨ s.i.toNat + x.val < a → t.mem.read a = s.mem.read a) ∧
      t.pc = s.pc + 2 ∧ Keeps [] [.mem] s t)

/-- R188, R189 (D14, D19; assumptions 7 and 12): `LD Vx,[I]` loads V0 to Vx from `I` to `I + x`, the registers above x,
memory and `I` stay; it fails where `I + x` is above 4095. -/
def Obligations.LdVxMemLoads : Prop :=
  ∀ (x : Reg) (s : State),
    (s.i.toNat + x.val > 4095 → exec (.ldVxMem x) s = .fault .outOfBoundsAddress) ∧
    (s.i.toNat + x.val ≤ 4095 → ∃ t, exec (.ldVxMem x) s = .next t ∧
      (∀ k : Reg, k ≤ x → t.reg k = s.mem.read (s.i.toNat + k.val)) ∧
      (∀ k : Reg, x < k → t.reg k = s.reg k) ∧
      t.pc = s.pc + 2 ∧ Keeps ((List.finRange 16).filter (· ≤ x)) [] s t)

/-- R187, R188 (D19, assumption 12): what `LD [I],Vx` stored, a later `LD Vx,[I]` loads back, whatever ran in between as
long as `I` and the stored bytes stayed. -/
def Obligations.StoreThenLoadRegisters : Prop :=
  ∀ (x : Reg) (s t u : State), exec (.ldMemVx x) s = .next t → u.i = t.i →
    (∀ k : Reg, k ≤ x → u.mem.read (s.i.toNat + k.val) = t.mem.read (s.i.toNat + k.val)) →
    ∃ w, exec (.ldVxMem x) u = .next w ∧ ∀ k : Reg, k ≤ x → w.reg k = s.reg k

/-! ### The operations of the host -/

/-- R217: `TimerTick` takes 1 from each timer unless it is 0, changes nothing else, `pc` included, and cannot fail; a
timer loaded with v is 0 after exactly v of them and stays 0. The timers are 0 after `Reset`, are written by `LD DT,Vx`
and `LD ST,Vx`, and `DT` is read by `LD Vx,DT`. -/
def Obligations.TimerTickCountsDown : Prop :=
  (∀ s : State, (perform .timerTick s).2 = .ok ∧
    (∀ t, t = (perform .timerTick s).1 → t.dt.toNat = s.dt.toNat - 1 ∧ t.st.toNat = s.st.toNat - 1 ∧ t.pc = s.pc ∧
      Keeps [] [.dt, .st] s t) ∧
    ∀ n : Nat, ((performAll (List.replicate n .timerTick) s).dt.toNat = 0 ↔ s.dt.toNat ≤ n) ∧
      ((performAll (List.replicate n .timerTick) s).st.toNat = 0 ↔ s.st.toNat ≤ n)) ∧
  (∀ s : State, (perform .reset s).1.dt = 0#8 ∧ (perform .reset s).1.st = 0#8) ∧
  ∀ (x : Reg) (s : State), (∃ t, exec (.ldDtVx x) s = .next t ∧ t.dt = s.reg x) ∧
    (∃ t, exec (.ldStVx x) s = .next t ∧ t.st = s.reg x) ∧ ∃ t, exec (.ldVxDt x) s = .next t ∧ t.reg x = s.dt

/-- R218 (D29, assumption 14): `LoadProgram` of at most 3584 bytes puts them at 0x200 and changes nothing else; of more
it fails and changes nothing. -/
def Obligations.LoadProgramCopies : Prop :=
  ∀ (bytes : List Byte) (s : State),
    (bytes.length > 3584 → perform (.loadProgram bytes) s = (s, .err .programTooLarge)) ∧
    (bytes.length ≤ 3584 → ∃ t, perform (.loadProgram bytes) s = (t, .ok) ∧
      (∀ k (h : k < bytes.length), t.mem.read (0x200 + k) = bytes[k]) ∧
      (∀ a, a < 0x200 ∨ 0x200 + bytes.length ≤ a → t.mem.read a = s.mem.read a) ∧ t.pc = s.pc ∧
      Keeps [] [.mem] s t)

/-- R220: `beep` is true exactly when `ST > 0`, and changes only with `LD ST,Vx`, `TimerTick` or `Reset`. -/
def Obligations.BeepFollowsSoundTimer : Prop :=
  (∀ s : State, beep s = true ↔ s.st.toNat > 0) ∧
  (∀ (i : Instr) (s t : State), exec i s = .next t → beep t ≠ beep s → ∃ x, i = .ldStVx x) ∧
  ∀ (bytes : List Byte) (s : State), beep (perform (.loadProgram bytes) s).1 = beep s

/-- T5 (R120, R219): `CLS` followed by a framebuffer read gives an all-false grid, whatever host operations other than a
`Tick` come in between. -/
def Obligations.FramebufferAfterCls : Prop :=
  ∀ (s t : State) (ops : List HostOp), exec .cls s = .next t → (∀ op ∈ ops, ∀ keys rnd, op ≠ .tick keys rnd) →
    ∀ px py, Display.get (framebuffer (performAll ops t)) px py = false

/-- The state a word is placed into runs it: with an opcode of 16 bits placed where the step fetches, the next step
executes the instruction the decoder reads from it. (The placement is the model's own, assumption 15.) -/
def Obligations.PlacedOpcodeRuns : Prop :=
  ∀ (s : State) (w : Nat) (i : Instr), w < 65536 → decode s.params.strictXY0 (BitVec.ofNat 16 w) = .instr i →
    step (s.withFetchWord 16 w) = exec i (s.withFetchWord 16 w)

/-- R122 (R101, R102; D14, assumption 7): "A program that runs into zeroed memory therefore executes no-ops until `pc`
passes 4094", from every state: `k` steps over zero bytes change nothing but `pc`, which advances by 2 in each; and where
they end above 4094 the step after them fails. That a run is a number of steps is the model's choice (assumption 19). -/
def Obligations.ZeroedMemoryRun : Prop :=
  ∀ (s : State) (k : Nat), s.pc.toNat + 2 * k ≤ 4096 →
    (∀ a, s.pc.toNat ≤ a → a < s.pc.toNat + 2 * k → s.mem.read a = 0#8) →
    ∃ t : State, Sys2Proof.core.run k s = .next t ∧ t.pc.toNat = s.pc.toNat + 2 * k ∧ Keeps [] [] s t ∧
      (s.pc.toNat + 2 * k > 4094 → Sys2Proof.core.run (k + 1) s = .fault .outOfBoundsAddress)
end

