-- ==== Sys2Proof/Laws/Memory.lean ====
section
/-! SUPPORT. The laws of memory: a read after a write, the other addresses, the canonical form kept, equal contents
being equal lists, and the same for several bytes. The read laws hold of every list, canonical or not. -/

namespace Sys2Proof.Machine

theorem Memory.read_cell (a : Nat) (w : Byte) (m : Memory) (h : ∀ b, b ≤ a → Memory.read m b = Memory.unlisted b)
    (b : Nat) : Memory.read (Memory.cell a w m) b = if b = a then w else if b < a then Memory.unlisted b else
      Memory.read m b := by
  unfold Memory.cell
  split
  · next hw => rcases lt_trichotomy b a with hb | hb | hb
               · simp [hb, hb.ne, h b hb.le]
               · subst hb; simp [hw, h b le_rfl]
               · simp [hb.ne', hb.asymm]
  · rcases lt_trichotomy b a with hb | hb | hb
    · simp [Memory.read, hb.ne, hb, hb.asymm, hb.ne']
    · subst hb; simp [Memory.read]
    · simp [Memory.read, hb, hb.ne', hb.asymm]

theorem Memory.read_above (a : Nat) (m : Memory) (b : Nat) : Memory.read (Memory.above a m) b =
    if b ≤ a then Memory.unlisted b else Memory.read m b := by
  induction m with
  | nil => simp [Memory.above, Memory.read]
  | cons c m ih =>
    obtain ⟨p, u⟩ := c
    by_cases hp : p ≤ a
    · simp only [Memory.above, hp, if_true, ih]
      by_cases hb : b ≤ a
      · simp [hb]
      · have : p < b := by omega
        simp [hb, Memory.read, this]
    · simp only [Memory.above, hp, if_false]
      by_cases hb : b ≤ a
      · have h1 : ¬ p < b := by omega
        have h2 : p ≠ b := by omega
        simp [hb, Memory.read, h1, h2]
      · simp [hb]

/-- One law for both addresses: what is read after a write. -/
theorem Memory.read_write (m : Memory) (a : Nat) (w : Byte) (b : Nat) :
    Memory.read (Memory.write m a w) b = if b = a then w else Memory.read m b := by
  induction m with
  | nil =>
    rw [Memory.write, Memory.read_cell a w [] (fun _ _ => rfl)]
    simp [Memory.read]
  | cons c m ih =>
    obtain ⟨p, u⟩ := c
    by_cases hp : p < a
    · simp only [Memory.write, hp, if_true, Memory.read, ih]
      by_cases hb : b = a
      · simp [hb, hp]
      · simp [hb]
    · simp only [Memory.write, hp, if_false]
      rw [Memory.read_cell a w _ (fun b hb => by simp [Memory.read_above, hb])]
      by_cases hb : b = a
      · simp [hb]
      · rcases Nat.lt_or_gt_of_ne hb with hlt | hgt
        · have h1 : ¬ p < b := by omega
          have h2 : p ≠ b := by omega
          simp [hb, hlt, Memory.read, h1, h2]
        · have h1 : ¬ b < a := by omega
          have h2 : ¬ b ≤ a := by omega
          simp [hb, h1, Memory.read_above, h2]

@[simp] theorem Memory.read_write_same (m : Memory) (a : Nat) (w : Byte) :
    Memory.read (Memory.write m a w) a = w := by simp [Memory.read_write]

theorem Memory.read_write_other (m : Memory) {a b : Nat} (w : Byte) (h : b ≠ a) :
    Memory.read (Memory.write m a w) b = Memory.read m b := by simp [Memory.read_write, h]

theorem Memory.wfFrom_mono {m : Memory} {lo lo' : Nat} (h : lo' ≤ lo) (hm : Memory.wfFrom lo m = true) :
    Memory.wfFrom lo' m = true := by
  cases m with
  | nil => rfl
  | cons c m =>
    simp only [Memory.wfFrom, Bool.and_eq_true, decide_eq_true_eq] at hm ⊢
    exact ⟨⟨⟨h.trans hm.1.1.1, hm.1.1.2⟩, hm.1.2⟩, hm.2⟩

theorem Memory.wfFrom_above {m : Memory} {lo : Nat} (a : Nat) (hm : Memory.wfFrom lo m = true) :
    Memory.wfFrom (a + 1) (Memory.above a m) = true := by
  induction m generalizing lo with
  | nil => rfl
  | cons c m ih =>
    obtain ⟨p, u⟩ := c
    simp only [Memory.wfFrom, Bool.and_eq_true, decide_eq_true_eq] at hm
    by_cases hp : p ≤ a
    · simpa [Memory.above, hp] using ih hm.2
    · simp only [Memory.above, hp, if_false, Memory.wfFrom, Bool.and_eq_true, decide_eq_true_eq]
      exact ⟨⟨⟨by omega, hm.1.1.2⟩, hm.1.2⟩, hm.2⟩

theorem Memory.wfFrom_cell {m : Memory} {a lo : Nat} (w : Byte) (hlo : lo ≤ a) (ha : a < Config.memSize)
    (hm : Memory.wfFrom (a + 1) m = true) : Memory.wfFrom lo (Memory.cell a w m) = true := by
  unfold Memory.cell
  split
  · exact Memory.wfFrom_mono (by omega) hm
  · next hw => simp [Memory.wfFrom, hlo, hm, hw]; simpa using ha

theorem Memory.wfFrom_write {m : Memory} {a lo : Nat} (w : Byte) (hlo : lo ≤ a) (ha : a < Config.memSize)
    (hm : Memory.wfFrom lo m = true) : Memory.wfFrom lo (Memory.write m a w) = true := by
  induction m generalizing lo with
  | nil => exact Memory.wfFrom_cell w hlo ha rfl
  | cons c m ih =>
    obtain ⟨p, u⟩ := c
    by_cases hp : p < a
    · simp only [Memory.wfFrom, Bool.and_eq_true] at hm
      simp only [Memory.write, hp, if_true, Memory.wfFrom, Bool.and_eq_true]
      exact ⟨hm.1, ih (by omega) hm.2⟩
    · simp only [Memory.write, hp, if_false]
      exact Memory.wfFrom_cell w hlo ha (Memory.wfFrom_above a hm)

/-- A write inside the address space keeps the canonical form. -/
theorem Memory.wf_write {m : Memory} {a : Nat} (w : Byte) (ha : a < Config.memSize) (hm : m.wf = true) :
    (Memory.write m a w).wf = true := Memory.wfFrom_write w (Nat.zero_le a) ha hm

theorem Memory.wf_writeBytes {m : Memory} {lo : Nat} {bs : List Byte} (h : lo + bs.length ≤ Config.memSize)
    (hm : m.wf = true) : (Memory.writeBytes m lo bs).wf = true := by
  induction bs generalizing m lo with
  | nil => exact hm
  | cons b bs ih =>
    simp only [List.length_cons] at h
    exact ih (by omega) (Memory.wf_write b (by omega) hm)

/-- What is read after several bytes were stored at `lo`, `lo + 1`, ... -/
theorem Memory.read_writeBytes (m : Memory) (lo : Nat) (bs : List Byte) (a : Nat) :
    Memory.read (Memory.writeBytes m lo bs) a =
      if lo ≤ a ∧ a < lo + bs.length then bs.getD (a - lo) 0#8 else Memory.read m a := by
  induction bs generalizing m lo with
  | nil =>
    have h : ¬ (lo ≤ a ∧ a < lo + ([] : List Byte).length) := by simp only [List.length_nil]; omega
    rw [if_neg h, Memory.writeBytes]
  | cons b bs ih =>
    rw [Memory.writeBytes, ih, Memory.read_write]
    simp only [List.length_cons]
    by_cases h1 : lo + 1 ≤ a ∧ a < lo + 1 + bs.length
    · have h2 : lo ≤ a ∧ a < lo + (bs.length + 1) := by omega
      obtain ⟨d, rfl⟩ : ∃ d, a = lo + 1 + d := ⟨a - (lo + 1), by omega⟩
      have h3 : lo + 1 + d - lo = d + 1 := by omega
      rw [if_pos h1, if_pos h2, h3, List.getD_cons_succ]
      congr 1
      omega
    · rw [if_neg h1]
      by_cases h2 : a = lo
      · subst h2; simp
      · have h3 : ¬ (lo ≤ a ∧ a < lo + (bs.length + 1)) := by omega
        rw [if_neg h2, if_neg h3]

theorem Memory.read_writeBytes_other (m : Memory) {lo a : Nat} {bs : List Byte}
    (h : a < lo ∨ lo + bs.length ≤ a) : Memory.read (Memory.writeBytes m lo bs) a = Memory.read m a := by
  rw [Memory.read_writeBytes, if_neg (by omega)]

@[simp] theorem Memory.length_readBytes (m : Memory) (lo n : Nat) : (m.readBytes lo n).length = n := by
  simp [Memory.readBytes]

theorem Memory.getElem_readBytes (m : Memory) (lo n k : Nat) (h : k < (m.readBytes lo n).length) :
    (m.readBytes lo n)[k] = m.read (lo + k) := by simp [Memory.readBytes]

theorem Memory.read_below {m : Memory} {lo a : Nat} (hm : Memory.wfFrom lo m = true) (ha : a < lo) :
    Memory.read m a = Memory.unlisted a := by
  cases m with
  | nil => rfl
  | cons c m =>
    simp only [Memory.wfFrom, Bool.and_eq_true, decide_eq_true_eq] at hm
    have h1 : ¬ c.1 < a := by omega
    have h2 : c.1 ≠ a := by omega
    simp [Memory.read, h1, h2]

/-- Above every listed cell an address reads as unlisted. -/
theorem Memory.read_above_all {m : Memory} {a : Nat} (h : ∀ c ∈ m, c.1 < a) : m.read a = Memory.unlisted a := by
  induction m with
  | nil => rfl
  | cons c m ih =>
    rw [Memory.read, if_pos (h c (by simp))]
    exact ih fun d hd => h d (by simp [hd])

theorem Memory.wfFrom_ext {m m' : Memory} {lo : Nat} (hm : Memory.wfFrom lo m = true)
    (hm' : Memory.wfFrom lo m' = true) (h : ∀ a, lo ≤ a → Memory.read m a = Memory.read m' a) : m = m' := by
  induction m generalizing m' lo with
  | nil =>
    cases m' with
    | nil => rfl
    | cons c m' =>
      obtain ⟨p, u⟩ := c
      simp only [Memory.wfFrom, Bool.and_eq_true, decide_eq_true_eq, bne_iff_ne] at hm'
      exact absurd (by simpa [Memory.read] using (h p hm'.1.1.1).symm) hm'.1.2
  | cons c m ih =>
    obtain ⟨p, u⟩ := c
    have hm0 := hm
    simp only [Memory.wfFrom, Bool.and_eq_true, decide_eq_true_eq, bne_iff_ne] at hm
    cases m' with
    | nil => exact absurd (by simpa [Memory.read] using h p hm.1.1.1) hm.1.2
    | cons c' m' =>
      obtain ⟨q, w⟩ := c'
      have hm0' := hm'
      simp only [Memory.wfFrom, Bool.and_eq_true, decide_eq_true_eq, bne_iff_ne] at hm'
      have hpq : p = q := by
        rcases lt_trichotomy p q with hlt | heq | hgt
        · have := h p hm.1.1.1
          have h1 : ¬ q < p := by omega
          simp [Memory.read, h1, hlt.ne'] at this
          exact absurd this hm.1.2
        · exact heq
        · have := h q hm'.1.1.1
          have h1 : ¬ p < q := by omega
          simp [Memory.read, h1, hgt.ne'] at this
          exact absurd this.symm hm'.1.2
      subst hpq
      have hu : u = w := by simpa [Memory.read] using h p hm.1.1.1
      subst hu
      congr 1
      refine ih hm.2 hm'.2 fun a ha => ?_
      have := h a (by omega)
      have h1 : p < a := by omega
      simpa [Memory.read, h1] using this

/-- Canonical memories with equal contents are equal lists. -/
theorem Memory.wf_ext {m m' : Memory} (hm : m.wf = true) (hm' : m'.wf = true)
    (h : ∀ a, Memory.read m a = Memory.read m' a) : m = m' := Memory.wfFrom_ext hm hm' fun a _ => h a

theorem rangeOk_iff (lo count : Nat) : rangeOk lo count = true ↔ count = 0 ∨ lo + count - 1 ≤ 4095 := by
  simp [rangeOk]

theorem rangeOk_eq_false (lo count : Nat) : rangeOk lo count = false ↔ 0 < count ∧ 4095 < lo + count - 1 := by
  rw [← Bool.not_eq_true, rangeOk_iff]; omega

end Sys2Proof.Machine
end

