-- ==== Sys2Proof/Laws/State.lean ====
section
/-! SUPPORT. What each named update of the state does to each field: one lemma per field per update, each true by
definition, so that no proof unfolds a record update. -/

namespace Sys2Proof.Machine

variable (s : State)

@[simp] theorem State.setReg_v (r : Reg) (b : Byte) : (s.setReg r b).v = s.v.set r.val b := rfl
@[simp] theorem State.setReg_i (r : Reg) (b : Byte) : (s.setReg r b).i = s.i := rfl
@[simp] theorem State.setReg_pc (r : Reg) (b : Byte) : (s.setReg r b).pc = s.pc := rfl
@[simp] theorem State.setReg_stack (r : Reg) (b : Byte) : (s.setReg r b).stack = s.stack := rfl
@[simp] theorem State.setReg_sp (r : Reg) (b : Byte) : (s.setReg r b).sp = s.sp := rfl
@[simp] theorem State.setReg_display (r : Reg) (b : Byte) : (s.setReg r b).display = s.display := rfl
@[simp] theorem State.setReg_dt (r : Reg) (b : Byte) : (s.setReg r b).dt = s.dt := rfl
@[simp] theorem State.setReg_st (r : Reg) (b : Byte) : (s.setReg r b).st = s.st := rfl
@[simp] theorem State.setReg_mem (r : Reg) (b : Byte) : (s.setReg r b).mem = s.mem := rfl
@[simp] theorem State.setReg_params (r : Reg) (b : Byte) : (s.setReg r b).params = s.params := rfl
@[simp] theorem State.setReg_keyInputs (r : Reg) (b : Byte) : (s.setReg r b).keyInputs = s.keyInputs := rfl
@[simp] theorem State.setReg_keySamples (r : Reg) (b : Byte) : (s.setReg r b).keySamples = s.keySamples := rfl
@[simp] theorem State.setReg_rndInputs (r : Reg) (b : Byte) : (s.setReg r b).rndInputs = s.rndInputs := rfl
@[simp] theorem State.setReg_rndSamples (r : Reg) (b : Byte) : (s.setReg r b).rndSamples = s.rndSamples := rfl

@[simp] theorem State.setRegs_v (v : Vector Byte 16) : (s.setRegs v).v = v := rfl
@[simp] theorem State.setRegs_i (v : Vector Byte 16) : (s.setRegs v).i = s.i := rfl
@[simp] theorem State.setRegs_pc (v : Vector Byte 16) : (s.setRegs v).pc = s.pc := rfl
@[simp] theorem State.setRegs_stack (v : Vector Byte 16) : (s.setRegs v).stack = s.stack := rfl
@[simp] theorem State.setRegs_sp (v : Vector Byte 16) : (s.setRegs v).sp = s.sp := rfl
@[simp] theorem State.setRegs_display (v : Vector Byte 16) : (s.setRegs v).display = s.display := rfl
@[simp] theorem State.setRegs_dt (v : Vector Byte 16) : (s.setRegs v).dt = s.dt := rfl
@[simp] theorem State.setRegs_st (v : Vector Byte 16) : (s.setRegs v).st = s.st := rfl
@[simp] theorem State.setRegs_mem (v : Vector Byte 16) : (s.setRegs v).mem = s.mem := rfl
@[simp] theorem State.setRegs_params (v : Vector Byte 16) : (s.setRegs v).params = s.params := rfl
@[simp] theorem State.setRegs_keyInputs (v : Vector Byte 16) : (s.setRegs v).keyInputs = s.keyInputs := rfl
@[simp] theorem State.setRegs_keySamples (v : Vector Byte 16) : (s.setRegs v).keySamples = s.keySamples := rfl
@[simp] theorem State.setRegs_rndInputs (v : Vector Byte 16) : (s.setRegs v).rndInputs = s.rndInputs := rfl
@[simp] theorem State.setRegs_rndSamples (v : Vector Byte 16) : (s.setRegs v).rndSamples = s.rndSamples := rfl

@[simp] theorem State.setI_v (w : Word) : (s.setI w).v = s.v := rfl
@[simp] theorem State.setI_i (w : Word) : (s.setI w).i = w := rfl
@[simp] theorem State.setI_pc (w : Word) : (s.setI w).pc = s.pc := rfl
@[simp] theorem State.setI_stack (w : Word) : (s.setI w).stack = s.stack := rfl
@[simp] theorem State.setI_sp (w : Word) : (s.setI w).sp = s.sp := rfl
@[simp] theorem State.setI_display (w : Word) : (s.setI w).display = s.display := rfl
@[simp] theorem State.setI_dt (w : Word) : (s.setI w).dt = s.dt := rfl
@[simp] theorem State.setI_st (w : Word) : (s.setI w).st = s.st := rfl
@[simp] theorem State.setI_mem (w : Word) : (s.setI w).mem = s.mem := rfl
@[simp] theorem State.setI_params (w : Word) : (s.setI w).params = s.params := rfl
@[simp] theorem State.setI_keyInputs (w : Word) : (s.setI w).keyInputs = s.keyInputs := rfl
@[simp] theorem State.setI_keySamples (w : Word) : (s.setI w).keySamples = s.keySamples := rfl
@[simp] theorem State.setI_rndInputs (w : Word) : (s.setI w).rndInputs = s.rndInputs := rfl
@[simp] theorem State.setI_rndSamples (w : Word) : (s.setI w).rndSamples = s.rndSamples := rfl

@[simp] theorem State.setPc_v (w : Word) : (s.setPc w).v = s.v := rfl
@[simp] theorem State.setPc_i (w : Word) : (s.setPc w).i = s.i := rfl
@[simp] theorem State.setPc_pc (w : Word) : (s.setPc w).pc = w := rfl
@[simp] theorem State.setPc_stack (w : Word) : (s.setPc w).stack = s.stack := rfl
@[simp] theorem State.setPc_sp (w : Word) : (s.setPc w).sp = s.sp := rfl
@[simp] theorem State.setPc_display (w : Word) : (s.setPc w).display = s.display := rfl
@[simp] theorem State.setPc_dt (w : Word) : (s.setPc w).dt = s.dt := rfl
@[simp] theorem State.setPc_st (w : Word) : (s.setPc w).st = s.st := rfl
@[simp] theorem State.setPc_mem (w : Word) : (s.setPc w).mem = s.mem := rfl
@[simp] theorem State.setPc_params (w : Word) : (s.setPc w).params = s.params := rfl
@[simp] theorem State.setPc_keyInputs (w : Word) : (s.setPc w).keyInputs = s.keyInputs := rfl
@[simp] theorem State.setPc_keySamples (w : Word) : (s.setPc w).keySamples = s.keySamples := rfl
@[simp] theorem State.setPc_rndInputs (w : Word) : (s.setPc w).rndInputs = s.rndInputs := rfl
@[simp] theorem State.setPc_rndSamples (w : Word) : (s.setPc w).rndSamples = s.rndSamples := rfl

@[simp] theorem State.setDt_v (b : Byte) : (s.setDt b).v = s.v := rfl
@[simp] theorem State.setDt_i (b : Byte) : (s.setDt b).i = s.i := rfl
@[simp] theorem State.setDt_pc (b : Byte) : (s.setDt b).pc = s.pc := rfl
@[simp] theorem State.setDt_stack (b : Byte) : (s.setDt b).stack = s.stack := rfl
@[simp] theorem State.setDt_sp (b : Byte) : (s.setDt b).sp = s.sp := rfl
@[simp] theorem State.setDt_display (b : Byte) : (s.setDt b).display = s.display := rfl
@[simp] theorem State.setDt_dt (b : Byte) : (s.setDt b).dt = b := rfl
@[simp] theorem State.setDt_st (b : Byte) : (s.setDt b).st = s.st := rfl
@[simp] theorem State.setDt_mem (b : Byte) : (s.setDt b).mem = s.mem := rfl
@[simp] theorem State.setDt_params (b : Byte) : (s.setDt b).params = s.params := rfl
@[simp] theorem State.setDt_keyInputs (b : Byte) : (s.setDt b).keyInputs = s.keyInputs := rfl
@[simp] theorem State.setDt_keySamples (b : Byte) : (s.setDt b).keySamples = s.keySamples := rfl
@[simp] theorem State.setDt_rndInputs (b : Byte) : (s.setDt b).rndInputs = s.rndInputs := rfl
@[simp] theorem State.setDt_rndSamples (b : Byte) : (s.setDt b).rndSamples = s.rndSamples := rfl

@[simp] theorem State.setSt_v (b : Byte) : (s.setSt b).v = s.v := rfl
@[simp] theorem State.setSt_i (b : Byte) : (s.setSt b).i = s.i := rfl
@[simp] theorem State.setSt_pc (b : Byte) : (s.setSt b).pc = s.pc := rfl
@[simp] theorem State.setSt_stack (b : Byte) : (s.setSt b).stack = s.stack := rfl
@[simp] theorem State.setSt_sp (b : Byte) : (s.setSt b).sp = s.sp := rfl
@[simp] theorem State.setSt_display (b : Byte) : (s.setSt b).display = s.display := rfl
@[simp] theorem State.setSt_dt (b : Byte) : (s.setSt b).dt = s.dt := rfl
@[simp] theorem State.setSt_st (b : Byte) : (s.setSt b).st = b := rfl
@[simp] theorem State.setSt_mem (b : Byte) : (s.setSt b).mem = s.mem := rfl
@[simp] theorem State.setSt_params (b : Byte) : (s.setSt b).params = s.params := rfl
@[simp] theorem State.setSt_keyInputs (b : Byte) : (s.setSt b).keyInputs = s.keyInputs := rfl
@[simp] theorem State.setSt_keySamples (b : Byte) : (s.setSt b).keySamples = s.keySamples := rfl
@[simp] theorem State.setSt_rndInputs (b : Byte) : (s.setSt b).rndInputs = s.rndInputs := rfl
@[simp] theorem State.setSt_rndSamples (b : Byte) : (s.setSt b).rndSamples = s.rndSamples := rfl

@[simp] theorem State.setMem_v (m : Memory) : (s.setMem m).v = s.v := rfl
@[simp] theorem State.setMem_i (m : Memory) : (s.setMem m).i = s.i := rfl
@[simp] theorem State.setMem_pc (m : Memory) : (s.setMem m).pc = s.pc := rfl
@[simp] theorem State.setMem_stack (m : Memory) : (s.setMem m).stack = s.stack := rfl
@[simp] theorem State.setMem_sp (m : Memory) : (s.setMem m).sp = s.sp := rfl
@[simp] theorem State.setMem_display (m : Memory) : (s.setMem m).display = s.display := rfl
@[simp] theorem State.setMem_dt (m : Memory) : (s.setMem m).dt = s.dt := rfl
@[simp] theorem State.setMem_st (m : Memory) : (s.setMem m).st = s.st := rfl
@[simp] theorem State.setMem_mem (m : Memory) : (s.setMem m).mem = m := rfl
@[simp] theorem State.setMem_params (m : Memory) : (s.setMem m).params = s.params := rfl
@[simp] theorem State.setMem_keyInputs (m : Memory) : (s.setMem m).keyInputs = s.keyInputs := rfl
@[simp] theorem State.setMem_keySamples (m : Memory) : (s.setMem m).keySamples = s.keySamples := rfl
@[simp] theorem State.setMem_rndInputs (m : Memory) : (s.setMem m).rndInputs = s.rndInputs := rfl
@[simp] theorem State.setMem_rndSamples (m : Memory) : (s.setMem m).rndSamples = s.rndSamples := rfl

@[simp] theorem State.setDisplay_v (d : Display) : (s.setDisplay d).v = s.v := rfl
@[simp] theorem State.setDisplay_i (d : Display) : (s.setDisplay d).i = s.i := rfl
@[simp] theorem State.setDisplay_pc (d : Display) : (s.setDisplay d).pc = s.pc := rfl
@[simp] theorem State.setDisplay_stack (d : Display) : (s.setDisplay d).stack = s.stack := rfl
@[simp] theorem State.setDisplay_sp (d : Display) : (s.setDisplay d).sp = s.sp := rfl
@[simp] theorem State.setDisplay_display (d : Display) : (s.setDisplay d).display = d := rfl
@[simp] theorem State.setDisplay_dt (d : Display) : (s.setDisplay d).dt = s.dt := rfl
@[simp] theorem State.setDisplay_st (d : Display) : (s.setDisplay d).st = s.st := rfl
@[simp] theorem State.setDisplay_mem (d : Display) : (s.setDisplay d).mem = s.mem := rfl
@[simp] theorem State.setDisplay_params (d : Display) : (s.setDisplay d).params = s.params := rfl
@[simp] theorem State.setDisplay_keyInputs (d : Display) : (s.setDisplay d).keyInputs = s.keyInputs := rfl
@[simp] theorem State.setDisplay_keySamples (d : Display) : (s.setDisplay d).keySamples = s.keySamples := rfl
@[simp] theorem State.setDisplay_rndInputs (d : Display) : (s.setDisplay d).rndInputs = s.rndInputs := rfl
@[simp] theorem State.setDisplay_rndSamples (d : Display) : (s.setDisplay d).rndSamples = s.rndSamples := rfl

@[simp] theorem State.setStack_v (k : Vector Word 16) (p : Fin 17) : (s.setStack k p).v = s.v := rfl
@[simp] theorem State.setStack_i (k : Vector Word 16) (p : Fin 17) : (s.setStack k p).i = s.i := rfl
@[simp] theorem State.setStack_pc (k : Vector Word 16) (p : Fin 17) : (s.setStack k p).pc = s.pc := rfl
@[simp] theorem State.setStack_stack (k : Vector Word 16) (p : Fin 17) : (s.setStack k p).stack = k := rfl
@[simp] theorem State.setStack_sp (k : Vector Word 16) (p : Fin 17) : (s.setStack k p).sp = p := rfl
@[simp] theorem State.setStack_display (k : Vector Word 16) (p : Fin 17) : (s.setStack k p).display = s.display := rfl
@[simp] theorem State.setStack_dt (k : Vector Word 16) (p : Fin 17) : (s.setStack k p).dt = s.dt := rfl
@[simp] theorem State.setStack_st (k : Vector Word 16) (p : Fin 17) : (s.setStack k p).st = s.st := rfl
@[simp] theorem State.setStack_mem (k : Vector Word 16) (p : Fin 17) : (s.setStack k p).mem = s.mem := rfl
@[simp] theorem State.setStack_params (k : Vector Word 16) (p : Fin 17) : (s.setStack k p).params = s.params := rfl
@[simp] theorem State.setStack_keyInputs (k : Vector Word 16) (p : Fin 17) : (s.setStack k p).keyInputs = s.keyInputs := rfl
@[simp] theorem State.setStack_keySamples (k : Vector Word 16) (p : Fin 17) : (s.setStack k p).keySamples = s.keySamples := rfl
@[simp] theorem State.setStack_rndInputs (k : Vector Word 16) (p : Fin 17) : (s.setStack k p).rndInputs = s.rndInputs := rfl
@[simp] theorem State.setStack_rndSamples (k : Vector Word 16) (p : Fin 17) : (s.setStack k p).rndSamples = s.rndSamples := rfl

@[simp] theorem State.takeKeys_v : s.takeKeys.v = s.v := rfl
@[simp] theorem State.takeKeys_i : s.takeKeys.i = s.i := rfl
@[simp] theorem State.takeKeys_pc : s.takeKeys.pc = s.pc := rfl
@[simp] theorem State.takeKeys_stack : s.takeKeys.stack = s.stack := rfl
@[simp] theorem State.takeKeys_sp : s.takeKeys.sp = s.sp := rfl
@[simp] theorem State.takeKeys_display : s.takeKeys.display = s.display := rfl
@[simp] theorem State.takeKeys_dt : s.takeKeys.dt = s.dt := rfl
@[simp] theorem State.takeKeys_st : s.takeKeys.st = s.st := rfl
@[simp] theorem State.takeKeys_mem : s.takeKeys.mem = s.mem := rfl
@[simp] theorem State.takeKeys_params : s.takeKeys.params = s.params := rfl
@[simp] theorem State.takeKeys_keyInputs : s.takeKeys.keyInputs = s.keyInputs.tail := rfl
@[simp] theorem State.takeKeys_keySamples : s.takeKeys.keySamples = s.keySamples + 1 := rfl
@[simp] theorem State.takeKeys_rndInputs : s.takeKeys.rndInputs = s.rndInputs := rfl
@[simp] theorem State.takeKeys_rndSamples : s.takeKeys.rndSamples = s.rndSamples := rfl

@[simp] theorem State.takeRnd_v : s.takeRnd.v = s.v := rfl
@[simp] theorem State.takeRnd_i : s.takeRnd.i = s.i := rfl
@[simp] theorem State.takeRnd_pc : s.takeRnd.pc = s.pc := rfl
@[simp] theorem State.takeRnd_stack : s.takeRnd.stack = s.stack := rfl
@[simp] theorem State.takeRnd_sp : s.takeRnd.sp = s.sp := rfl
@[simp] theorem State.takeRnd_display : s.takeRnd.display = s.display := rfl
@[simp] theorem State.takeRnd_dt : s.takeRnd.dt = s.dt := rfl
@[simp] theorem State.takeRnd_st : s.takeRnd.st = s.st := rfl
@[simp] theorem State.takeRnd_mem : s.takeRnd.mem = s.mem := rfl
@[simp] theorem State.takeRnd_params : s.takeRnd.params = s.params := rfl
@[simp] theorem State.takeRnd_keyInputs : s.takeRnd.keyInputs = s.keyInputs := rfl
@[simp] theorem State.takeRnd_keySamples : s.takeRnd.keySamples = s.keySamples := rfl
@[simp] theorem State.takeRnd_rndInputs : s.takeRnd.rndInputs = s.rndInputs.tail := rfl
@[simp] theorem State.takeRnd_rndSamples : s.takeRnd.rndSamples = s.rndSamples + 1 := rfl

@[simp] theorem State.setFlag_v (f : Bool) : (s.setFlag f).v = s.v.set 15 (flagByte f) := rfl
@[simp] theorem State.setFlag_i (f : Bool) : (s.setFlag f).i = s.i := rfl
@[simp] theorem State.setFlag_pc (f : Bool) : (s.setFlag f).pc = s.pc := rfl
@[simp] theorem State.setFlag_stack (f : Bool) : (s.setFlag f).stack = s.stack := rfl
@[simp] theorem State.setFlag_sp (f : Bool) : (s.setFlag f).sp = s.sp := rfl
@[simp] theorem State.setFlag_display (f : Bool) : (s.setFlag f).display = s.display := rfl
@[simp] theorem State.setFlag_dt (f : Bool) : (s.setFlag f).dt = s.dt := rfl
@[simp] theorem State.setFlag_st (f : Bool) : (s.setFlag f).st = s.st := rfl
@[simp] theorem State.setFlag_mem (f : Bool) : (s.setFlag f).mem = s.mem := rfl
@[simp] theorem State.setFlag_params (f : Bool) : (s.setFlag f).params = s.params := rfl
@[simp] theorem State.setFlag_keyInputs (f : Bool) : (s.setFlag f).keyInputs = s.keyInputs := rfl
@[simp] theorem State.setFlag_keySamples (f : Bool) : (s.setFlag f).keySamples = s.keySamples := rfl
@[simp] theorem State.setFlag_rndInputs (f : Bool) : (s.setFlag f).rndInputs = s.rndInputs := rfl
@[simp] theorem State.setFlag_rndSamples (f : Bool) : (s.setFlag f).rndSamples = s.rndSamples := rfl

@[simp] theorem State.setResult_v (x : Reg) (r : Byte) (f : Bool) : (s.setResult x r f).v = (s.v.set x.val r).set 15 (flagByte f) := rfl
@[simp] theorem State.setResult_i (x : Reg) (r : Byte) (f : Bool) : (s.setResult x r f).i = s.i := rfl
@[simp] theorem State.setResult_pc (x : Reg) (r : Byte) (f : Bool) : (s.setResult x r f).pc = s.pc := rfl
@[simp] theorem State.setResult_stack (x : Reg) (r : Byte) (f : Bool) : (s.setResult x r f).stack = s.stack := rfl
@[simp] theorem State.setResult_sp (x : Reg) (r : Byte) (f : Bool) : (s.setResult x r f).sp = s.sp := rfl
@[simp] theorem State.setResult_display (x : Reg) (r : Byte) (f : Bool) : (s.setResult x r f).display = s.display := rfl
@[simp] theorem State.setResult_dt (x : Reg) (r : Byte) (f : Bool) : (s.setResult x r f).dt = s.dt := rfl
@[simp] theorem State.setResult_st (x : Reg) (r : Byte) (f : Bool) : (s.setResult x r f).st = s.st := rfl
@[simp] theorem State.setResult_mem (x : Reg) (r : Byte) (f : Bool) : (s.setResult x r f).mem = s.mem := rfl
@[simp] theorem State.setResult_params (x : Reg) (r : Byte) (f : Bool) : (s.setResult x r f).params = s.params := rfl
@[simp] theorem State.setResult_keyInputs (x : Reg) (r : Byte) (f : Bool) : (s.setResult x r f).keyInputs = s.keyInputs := rfl
@[simp] theorem State.setResult_keySamples (x : Reg) (r : Byte) (f : Bool) : (s.setResult x r f).keySamples = s.keySamples := rfl
@[simp] theorem State.setResult_rndInputs (x : Reg) (r : Byte) (f : Bool) : (s.setResult x r f).rndInputs = s.rndInputs := rfl
@[simp] theorem State.setResult_rndSamples (x : Reg) (r : Byte) (f : Bool) : (s.setResult x r f).rndSamples = s.rndSamples := rfl

end Sys2Proof.Machine
end

