-- ==== Sys2Proof/Laws/Ops.lean ====
section
/-! SUPPORT. For each shared operation one lemma that says what it does: registers, stack, display, keys, the bulk
transfers and the blit. -/

namespace Sys2Proof.Machine

variable (s : State)

theorem State.reg_eq (r : Reg) : s.reg r = s.v[r.val] := rfl

/-- Reading a register after writing one. -/
@[simp] theorem State.reg_setReg (r q : Reg) (b : Byte) : (s.setReg r b).reg q = if q = r then b else s.reg q := by
  simp only [State.reg, State.setReg_v, Vector.getElem_set, Fin.ext_iff, eq_comm (a := r.val)]

@[simp] theorem State.reg_setRegs (v : Vector Byte 16) (q : Reg) : (s.setRegs v).reg q = v[q.val] := rfl
@[simp] theorem State.reg_setI (w : Word) (q : Reg) : (s.setI w).reg q = s.reg q := rfl
@[simp] theorem State.reg_setPc (w : Word) (q : Reg) : (s.setPc w).reg q = s.reg q := rfl
@[simp] theorem State.reg_setDt (b : Byte) (q : Reg) : (s.setDt b).reg q = s.reg q := rfl
@[simp] theorem State.reg_setSt (b : Byte) (q : Reg) : (s.setSt b).reg q = s.reg q := rfl
@[simp] theorem State.reg_setMem (m : Memory) (q : Reg) : (s.setMem m).reg q = s.reg q := rfl
@[simp] theorem State.reg_setDisplay (d : Display) (q : Reg) : (s.setDisplay d).reg q = s.reg q := rfl
@[simp] theorem State.reg_setStack (k : Vector Word 16) (p : Fin 17) (q : Reg) :
    (s.setStack k p).reg q = s.reg q := rfl
@[simp] theorem State.reg_takeKeys (q : Reg) : s.takeKeys.reg q = s.reg q := rfl
@[simp] theorem State.reg_takeRnd (q : Reg) : s.takeRnd.reg q = s.reg q := rfl

@[simp] theorem State.reg_setFlag (f : Bool) (q : Reg) :
    (s.setFlag f).reg q = if q = 15 then flagByte f else s.reg q := by simp [State.setFlag, VF]

/-- The register file after a result and its flag are written: the flag write is the later one (R159). -/
@[simp] theorem State.reg_setResult (x q : Reg) (r : Byte) (f : Bool) :
    (s.setResult x r f).reg q = if q = 15 then flagByte f else if q = x then r else s.reg q := by
  simp [State.setResult]

/-- `push` with fewer than 16 entries writes entry `sp` and adds one to `sp` (R30). -/
theorem State.push_of_lt (w : Word) (h : s.sp.val < 16) :
    s.push w = some (s.setStack (s.stack.set s.sp.val w) ⟨s.sp.val + 1, by omega⟩) := by simp [State.push, h]

theorem State.push_of_full (w : Word) (h : s.sp.val = 16) : s.push w = none := by simp [State.push, h]

/-- `pop` with an entry reads entry `sp - 1` and takes one from `sp` (R30). -/
theorem State.pop_of_pos (h : 0 < s.sp.val) :
    s.pop = some (s.stack[s.sp.val - 1], s.setStack s.stack ⟨s.sp.val - 1, by omega⟩) := by simp [State.pop, h]

theorem State.pop_of_empty (h : s.sp.val = 0) : s.pop = none := by simp [State.pop, h]

@[simp] theorem Display.get_clear (px : Fin 64) (py : Fin 32) : Display.get Display.clear px py = false := by
  simp [Display.get, Display.clear]

/-- Reading a pixel after writing one. -/
@[simp] theorem Display.get_set (d : Display) (qx px : Fin 64) (qy py : Fin 32) (b : Bool) :
    Display.get (Display.set d qx qy b) px py = if px = qx ∧ py = qy then b else Display.get d px py := by
  simp only [Display.get, Display.set, Vector.getElem_set, Fin.ext_iff]
  by_cases h : qx.val = px.val
  · by_cases h' : qy.val = py.val
    · simp [h, h']
    · simp [h, h', Ne.symm h']
  · simp [h, Ne.symm h]

/-- Two displays with the same pixels are the same. -/
theorem Display.ext_get {d d' : Display} (h : ∀ px py, Display.get d px py = Display.get d' px py) : d = d' := by
  apply Vector.ext; intro px hpx; apply Vector.ext; intro py hpy
  exact h ⟨px, hpx⟩ ⟨py, hpy⟩

theorem anyPressed_iff (keys : Config.Keys) : anyPressed keys = true ↔ ∃ k, pressed keys k = true := by
  simp [anyPressed]

theorem lowestPressed_spec {keys : Config.Keys} (h : anyPressed keys = true) :
    pressed keys (lowestPressed keys) = true ∧ ∀ k < lowestPressed keys, pressed keys k = false := by
  obtain ⟨k0, hk0⟩ := (anyPressed_iff keys).1 h
  cases hf : (List.finRange 16).find? (pressed keys) with
  | none => exact absurd hk0 (by simpa using List.find?_eq_none.1 hf k0 (List.mem_finRange k0))
  | some k =>
    have hl : lowestPressed keys = k := by simp [lowestPressed, hf]
    rw [hl]
    refine ⟨List.find?_some hf, fun j hj => ?_⟩
    obtain ⟨_, as, bs, hab, hall⟩ := List.find?_eq_some_iff_append.1 hf
    have hsort : (List.finRange 16).Pairwise (· < ·) := by decide
    rw [hab, List.pairwise_append] at hsort
    have hj' : j ∈ as ++ k :: bs := hab ▸ List.mem_finRange j
    rcases List.mem_append.1 hj' with hm | hm
    · simpa using hall j hm
    · rcases List.mem_cons.1 hm with rfl | hm
      · exact absurd hj (lt_irrefl _)
      · exact absurd hj (not_lt_of_gt ((List.pairwise_cons.1 hsort.2.1).1 j hm))

/-- The law of `KeySelect`: the chosen key is pressed (R181 c). -/
theorem keySelect_pressed (k : Config.KeySelect) {keys : Config.Keys} (h : anyPressed keys = true) :
    pressed keys (keySelect k keys) = true := by
  cases k with
  | lowest => exact (lowestPressed_spec h).1
  | other => simp only [keySelect]; split
             · assumption
             · exact (lowestPressed_spec h).1

/-- The register file after `LD Vx,[I]` (R188). -/
theorem getElem_loadedRegs (v : Vector Byte 16) (m : Memory) (lo : Nat) (x k : Reg) :
    (loadedRegs v m lo x)[k.val] = if k ≤ x then m.read (lo + k.val) else v[k.val] := by
  simp only [loadedRegs, Vector.getElem_ofFn, Fin.le_def]

@[simp] theorem length_regsUpTo (v : Vector Byte 16) (x : Reg) : (regsUpTo v x).length = x.val + 1 := by
  simp only [regsUpTo, List.length_take, Vector.length_toList]; omega

theorem getD_regsUpTo (v : Vector Byte 16) (x k : Reg) (h : k ≤ x) : (regsUpTo v x).getD k.val 0#8 = v[k.val] := by
  have hk : k.val < (regsUpTo v x).length := by rw [length_regsUpTo]; exact Nat.lt_succ_of_le h
  simp [regsUpTo, List.getD_eq_getElem?_getD, Nat.lt_succ_of_le (Fin.le_def.1 h)]

@[simp] theorem length_bcdDigits (b : Byte) : (bcdDigits b).length = 3 := rfl

/-- What one row of a sprite covers (R171, R172). -/
theorem mem_rowPixels (x0 y0 r : Nat) (row : Byte) (p : Fin 64 × Fin 32) : p ∈ rowPixels x0 y0 r row ↔
    ∃ c < 8, row.getLsbD (7 - c) = true ∧ p.1.val = (x0 + c) % 64 ∧ p.2.val = (y0 + r) % 32 := by
  obtain ⟨px, py⟩ := p
  simp only [rowPixels, List.mem_map, List.mem_filter, List.mem_range, Prod.mk.injEq, Fin.ext_iff, Fin.val_ofNat]
  constructor
  · rintro ⟨c, ⟨hc, hb⟩, h1, h2⟩; exact ⟨c, hc, hb, h1.symm, h2.symm⟩
  · rintro ⟨c, hc, hb, h1, h2⟩; exact ⟨c, ⟨hc, hb⟩, h1.symm, h2.symm⟩

/-- What a sprite covers: bit `7 - c` of row `k` stands for the pixel `c` to the right of and `k` below its corner. -/
theorem mem_spritePixels (x0 y0 r : Nat) (rows : List Byte) (p : Fin 64 × Fin 32) : p ∈ spritePixels x0 y0 r rows ↔
    ∃ k < rows.length, ∃ c < 8, (rows.getD k 0#8).getLsbD (7 - c) = true ∧
      p.1.val = (x0 + c) % 64 ∧ p.2.val = (y0 + (r + k)) % 32 := by
  induction rows generalizing r with
  | nil => simp [spritePixels]
  | cons row rows ih =>
    rw [spritePixels, List.mem_append, mem_rowPixels, ih]
    constructor
    · rintro (h | ⟨k, hk, c, hc, hb, h1, h2⟩)
      · exact ⟨0, by simp, by simpa using h⟩
      · refine ⟨k + 1, by simpa using hk, c, hc, by simpa using hb, h1, ?_⟩
        rw [h2]; congr 1; omega
    · rintro ⟨k, hk, c, hc, hb, h1, h2⟩
      cases k with
      | zero => exact .inl ⟨c, hc, by simpa using hb, h1, by simpa using h2⟩
      | succ k =>
        refine .inr ⟨k, by simpa using hk, c, hc, by simpa using hb, h1, ?_⟩
        rw [h2]; congr 1; omega

theorem nodup_rowPixels (x0 y0 r : Nat) (row : Byte) : (rowPixels x0 y0 r row).Nodup := by
  refine List.Nodup.map_on ?_ (List.nodup_range.filter _)
  intro a ha b hb hab
  simp only [List.mem_filter, List.mem_range, Prod.mk.injEq, Fin.ext_iff, Fin.val_ofNat] at ha hb hab
  omega

/-- "no pixel is touched twice by one `DRW`" (R172). -/
theorem nodup_spritePixels (x0 y0 r : Nat) (rows : List Byte) (h : rows.length ≤ 32) :
    (spritePixels x0 y0 r rows).Nodup := by
  induction rows generalizing r with
  | nil => exact List.nodup_nil
  | cons row rows ih =>
    simp only [List.length_cons] at h
    refine List.nodup_append'.2 ⟨nodup_rowPixels x0 y0 r row, ih (r + 1) (by omega), fun p hp hq => ?_⟩
    obtain ⟨_, _, _, _, h1⟩ := (mem_rowPixels ..).1 hp
    obtain ⟨k, hk, _, _, _, _, h2⟩ := (mem_spritePixels ..).1 hq
    omega

/-- The loops of R170 over pixels that are all different: each one listed is inverted, the others stay, and the flag
tells whether a listed one was lit. -/
theorem foldl_togglePixel (ps : List (Fin 64 × Fin 32)) (hp : ps.Nodup) (d : Display) (f : Bool) :
    (∀ px py, Display.get (ps.foldl togglePixel (d, f)).1 px py =
      (Display.get d px py ^^ decide ((px, py) ∈ ps))) ∧
    (ps.foldl togglePixel (d, f)).2 = (f || ps.any fun p => Display.get d p.1 p.2) := by
  induction ps generalizing d f with
  | nil => simp
  | cons q ps ih =>
    obtain ⟨qx, qy⟩ := q
    obtain ⟨hq, hps⟩ := List.nodup_cons.1 hp
    obtain ⟨h1, h2⟩ := ih hps (Display.set d qx qy (!Display.get d qx qy)) (f || Display.get d qx qy)
    refine ⟨fun px py => ?_, ?_⟩
    · rw [List.foldl_cons, togglePixel, h1, Display.get_set]
      by_cases he : px = qx ∧ py = qy
      · obtain ⟨rfl, rfl⟩ := he; simp [hq]
      · simp [he]
    · rw [List.foldl_cons, togglePixel, h2, List.any_cons, Bool.or_assoc]
      congr 2
      refine Bool.eq_iff_iff.2 ?_
      simp only [List.any_eq_true]
      refine exists_congr fun p => and_congr_right fun hm => ?_
      have hne : ¬ (p.1 = qx ∧ p.2 = qy) := fun ⟨ha, hb⟩ => hq (by rw [← ha, ← hb]; exact hm)
      simp [hne]

/-- The blit of a sprite of at most 32 rows: a pixel is inverted exactly where the sprite covers it with a 1 bit, and
the flag is set exactly where such a pixel was lit. -/
theorem blit_spec (d : Display) (x0 y0 : Nat) (rows : List Byte) (h : rows.length ≤ 32) :
    (∀ px py, Display.get (blit d x0 y0 rows).1 px py =
      (Display.get d px py ^^ decide ((px, py) ∈ spritePixels x0 y0 0 rows))) ∧
    ((blit d x0 y0 rows).2 = true ↔ ∃ px py, (px, py) ∈ spritePixels x0 y0 0 rows ∧ Display.get d px py = true) := by
  obtain ⟨h1, h2⟩ := foldl_togglePixel _ (nodup_spritePixels x0 y0 0 rows h) d false
  refine ⟨h1, ?_⟩
  rw [blit, h2]
  simp [Prod.exists]

theorem flagByte_true : flagByte true = 1#8 := rfl
theorem flagByte_false : flagByte false = 0#8 := rfl

end Sys2Proof.Machine
end

