-- ==== Sys2Proof/Laws/Step.lean ====
section
/-! SUPPORT. What a step can do, said once: the three answers of the fetch and the decoder, and for the frame one
lemma per update of the state. -/

namespace Sys2Proof.Machine

/-- The opcode at `pc` where it can be fetched. -/
theorem State.fetchDecode_of_le {s : State} (h : s.pc.toNat ≤ 4094) :
    s.fetchDecode = some (decode s.params.strictXY0 s.opcodeAtPc) := by simp [State.fetchDecode, State.canFetch, h]

theorem State.fetchDecode_of_gt {s : State} (h : s.pc.toNat > 4094) : s.fetchDecode = none := by
  simp [State.fetchDecode, State.canFetch, h]

/-- If a step answers a next state, it executed the instruction fetched at `pc`. -/
theorem step_next_cases {s t : State} (h : step s = .next t) : s.pc.toNat ≤ 4094 ∧
    ∃ i, decode s.params.strictXY0 s.opcodeAtPc = .instr i ∧ exec i s = .next t := by
  by_cases hp : s.pc.toNat ≤ 4094
  · refine ⟨hp, ?_⟩
    rw [step, State.fetchDecode_of_le hp] at h
    cases hd : decode s.params.strictXY0 s.opcodeAtPc with
    | instr i => rw [hd] at h; exact ⟨i, rfl, h⟩
    | unknown raw => rw [hd] at h; cases h
  · rw [step, State.fetchDecode_of_gt (by omega)] at h; cases h

/-- A run whose first step completes goes on from the state after it, on every machine. -/
theorem coreRun_of_next (M : Host.Core) (k : Nat) {s t : M.State} (h : M.step s = .next t) :
    M.run (k + 1) s = M.run k t := by rw [Host.Core.run, h]

/-- A run whose first step fails ends with its error, on every machine. -/
theorem coreRun_of_fault (M : Host.Core) (k : Nat) {s : M.State} {e : M.Fault} (h : M.step s = .fault e) :
    M.run (k + 1) s = .fault e := by rw [Host.Core.run, h]

theorem run_succ_of_next {s t : State} (k : Nat) (h : step s = .next t) :
    Sys2Proof.core.run (k + 1) s = Sys2Proof.core.run k t := coreRun_of_next Sys2Proof.core k h

theorem run_succ_of_fault {s : State} {e : Fault} (k : Nat) (h : step s = .fault e) :
    Sys2Proof.core.run (k + 1) s = .fault e := coreRun_of_fault Sys2Proof.core k h

@[simp] theorem next_eq (s : State) : next s = .next (s.setPc (s.pc + 2)) := rfl
@[simp] theorem skipIf_eq (c : Bool) (s : State) : skipIf c s = .next (s.setPc (s.pc + if c then 4 else 2)) := rfl
@[simp] theorem jump_eq (t : Word) (s : State) : jump t s = .next (s.setPc t) := rfl
@[simp] theorem nextOrWait_eq (c : Bool) (s1 idle : State) :
    nextOrWait c s1 idle = .next (if c then s1.setPc (s1.pc + 2) else idle) := rfl
@[simp] theorem raise_eq (e : Fault) : raise e = .fault e := rfl

/-- A `Tick` with given inputs whose instruction completes: the state after it, and `Waiting` or `Ok`. -/
theorem tickWith_of_next {keys : Config.Keys} {rnd : Byte} {s t : State} {i : Instr} (hp : s.pc.toNat ≤ 4094)
    (hd : decode s.params.strictXY0 s.opcodeAtPc = .instr i)
    (he : exec i { s with keyInputs := [keys], rndInputs := [rnd] } = .next t) :
    tickWith keys rnd s = ({ t with keyInputs := s.keyInputs, rndInputs := s.rndInputs },
      match i with
      | .ldVxK _ => if anyPressed keys then .ok else .waiting
      | _ => .ok) := by
  have hf : ({ s with keyInputs := [keys], rndInputs := [rnd] } : State).fetchDecode = some (.instr i) :=
    (State.fetchDecode_of_le (s := s) hp).trans (congrArg some hd)
  have hs : step { s with keyInputs := [keys], rndInputs := [rnd] } = .next t := by rw [step, hf]; exact he
  rw [tickWith, tick, hs]
  cases i <;> simp [State.waits, hf, State.keys]
  cases anyPressed keys <;> rfl

theorem Keeps.rfl' (rs : List Reg) (ps : List Part) (s : State) : Keeps rs ps s s :=
  ⟨fun _ _ => rfl, fun _ => rfl, fun _ => ⟨rfl, fun _ => rfl⟩, fun _ _ _ => rfl, fun _ => rfl, fun _ => rfl,
    fun _ _ => rfl, fun _ => ⟨rfl, rfl⟩, fun _ => ⟨rfl, rfl⟩, rfl⟩

/-- The frame is kept along two updates. -/
theorem Keeps.trans {rs : List Reg} {ps : List Part} {s t u : State} (h : Keeps rs ps s t) (h' : Keeps rs ps t u) :
    Keeps rs ps s u where
  regs r hr := (h'.regs r hr).trans (h.regs r hr)
  index hp := (h'.index hp).trans (h.index hp)
  stack hp := ⟨(h'.stack hp).1.trans (h.stack hp).1, fun k => ((h'.stack hp).2 k).trans ((h.stack hp).2 k)⟩
  display hp px py := (h'.display hp px py).trans (h.display hp px py)
  dt hp := (h'.dt hp).trans (h.dt hp)
  st hp := (h'.st hp).trans (h.st hp)
  mem hp a := (h'.mem hp a).trans (h.mem hp a)
  keys hp := ⟨(h'.keys hp).1.trans (h.keys hp).1, (h'.keys hp).2.trans (h.keys hp).2⟩
  rnd hp := ⟨(h'.rnd hp).1.trans (h.rnd hp).1, (h'.rnd hp).2.trans (h.rnd hp).2⟩
  params := h'.params.trans h.params

section Updates

variable {rs : List Reg} {ps : List Part} (s : State)

theorem keeps_setPc (w : Word) : Keeps rs ps s (s.setPc w) :=
  ⟨fun _ _ => rfl, fun _ => rfl, fun _ => ⟨rfl, fun _ => rfl⟩, fun _ _ _ => rfl, fun _ => rfl, fun _ => rfl,
    fun _ _ => rfl, fun _ => ⟨rfl, rfl⟩, fun _ => ⟨rfl, rfl⟩, rfl⟩

theorem keeps_setReg {r : Reg} (b : Byte) (h : r ∈ rs) : Keeps rs ps s (s.setReg r b) :=
  ⟨fun q hq => by rw [State.reg_setReg]; exact if_neg fun e => hq (by rw [e]; exact h), fun _ => rfl, fun _ => ⟨rfl, fun _ => rfl⟩,
    fun _ _ _ => rfl, fun _ => rfl, fun _ => rfl, fun _ _ => rfl, fun _ => ⟨rfl, rfl⟩, fun _ => ⟨rfl, rfl⟩, rfl⟩

/-- A new register file that agrees with the old one outside `rs`. -/
theorem keeps_setRegs (v : Vector Byte 16) (h : ∀ r : Reg, r ∉ rs → v[r.val] = s.reg r) :
    Keeps rs ps s (s.setRegs v) :=
  ⟨h, fun _ => rfl, fun _ => ⟨rfl, fun _ => rfl⟩, fun _ _ _ => rfl, fun _ => rfl, fun _ => rfl, fun _ _ => rfl,
    fun _ => ⟨rfl, rfl⟩, fun _ => ⟨rfl, rfl⟩, rfl⟩

theorem keeps_setI (w : Word) (h : .index ∈ ps) : Keeps rs ps s (s.setI w) :=
  ⟨fun _ _ => rfl, fun hp => absurd h hp, fun _ => ⟨rfl, fun _ => rfl⟩, fun _ _ _ => rfl, fun _ => rfl,
    fun _ => rfl, fun _ _ => rfl, fun _ => ⟨rfl, rfl⟩, fun _ => ⟨rfl, rfl⟩, rfl⟩

theorem keeps_setStack (k : Vector Word 16) (p : Fin 17) (h : .stack ∈ ps) : Keeps rs ps s (s.setStack k p) :=
  ⟨fun _ _ => rfl, fun _ => rfl, fun hp => absurd h hp, fun _ _ _ => rfl, fun _ => rfl,
    fun _ => rfl, fun _ _ => rfl, fun _ => ⟨rfl, rfl⟩, fun _ => ⟨rfl, rfl⟩, rfl⟩

theorem keeps_setDisplay (d : Display) (h : .display ∈ ps) : Keeps rs ps s (s.setDisplay d) :=
  ⟨fun _ _ => rfl, fun _ => rfl, fun _ => ⟨rfl, fun _ => rfl⟩, fun hp => absurd h hp, fun _ => rfl,
    fun _ => rfl, fun _ _ => rfl, fun _ => ⟨rfl, rfl⟩, fun _ => ⟨rfl, rfl⟩, rfl⟩

theorem keeps_setDt (b : Byte) (h : .dt ∈ ps) : Keeps rs ps s (s.setDt b) :=
  ⟨fun _ _ => rfl, fun _ => rfl, fun _ => ⟨rfl, fun _ => rfl⟩, fun _ _ _ => rfl, fun hp => absurd h hp,
    fun _ => rfl, fun _ _ => rfl, fun _ => ⟨rfl, rfl⟩, fun _ => ⟨rfl, rfl⟩, rfl⟩

theorem keeps_setSt (b : Byte) (h : .st ∈ ps) : Keeps rs ps s (s.setSt b) :=
  ⟨fun _ _ => rfl, fun _ => rfl, fun _ => ⟨rfl, fun _ => rfl⟩, fun _ _ _ => rfl, fun _ => rfl,
    fun hp => absurd h hp, fun _ _ => rfl, fun _ => ⟨rfl, rfl⟩, fun _ => ⟨rfl, rfl⟩, rfl⟩

theorem keeps_setMem (m : Memory) (h : .mem ∈ ps) : Keeps rs ps s (s.setMem m) :=
  ⟨fun _ _ => rfl, fun _ => rfl, fun _ => ⟨rfl, fun _ => rfl⟩, fun _ _ _ => rfl, fun _ => rfl,
    fun _ => rfl, fun hp => absurd h hp, fun _ => ⟨rfl, rfl⟩, fun _ => ⟨rfl, rfl⟩, rfl⟩

theorem keeps_takeKeys (h : .keys ∈ ps) : Keeps rs ps s s.takeKeys :=
  ⟨fun _ _ => rfl, fun _ => rfl, fun _ => ⟨rfl, fun _ => rfl⟩, fun _ _ _ => rfl, fun _ => rfl,
    fun _ => rfl, fun _ _ => rfl, fun hp => absurd h hp, fun _ => ⟨rfl, rfl⟩, rfl⟩

theorem keeps_takeRnd (h : .rnd ∈ ps) : Keeps rs ps s s.takeRnd :=
  ⟨fun _ _ => rfl, fun _ => rfl, fun _ => ⟨rfl, fun _ => rfl⟩, fun _ _ _ => rfl, fun _ => rfl,
    fun _ => rfl, fun _ _ => rfl, fun _ => ⟨rfl, rfl⟩, fun hp => absurd h hp, rfl⟩

theorem keeps_setResult {x : Reg} (r : Byte) (f : Bool) (hx : x ∈ rs) (hf : (15 : Reg) ∈ rs) :
    Keeps rs ps s (s.setResult x r f) :=
  (keeps_setReg s r hx).trans (keeps_setReg _ _ hf)

end Updates

end Sys2Proof.Machine
end

