-- ==== Sys2Proof/Laws/Exec.lean ====
section
/-! SUPPORT. The meanings that check before they write, each as two equations: what it answers where the check passes
and where it fails. (The other meanings are one `next`, `skipIf` or `jump` and unfold to it.) -/

namespace Sys2Proof.Machine

variable (s : State)

theorem exec_ret_next (h : 0 < s.sp.val) : exec .ret s =
    .next ((s.setStack s.stack ⟨s.sp.val - 1, by omega⟩).setPc s.stack[s.sp.val - 1]) := by
  simp only [exec, execRet, State.pop_of_pos s h, jump_eq]

theorem exec_ret_empty (h : s.sp.val = 0) : exec .ret s = .fault .stackUnderflow := by
  simp only [exec, execRet, State.pop_of_empty s h, raise_eq]

theorem exec_call_next (nnn : Addr) (h : s.sp.val < 16) : exec (.call nnn) s =
    .next ((s.setStack (s.stack.set s.sp.val (s.pc + 2)) ⟨s.sp.val + 1, by omega⟩).setPc (zext16 nnn)) := by
  simp only [exec, execCall, State.push_of_lt s _ h, jump_eq]

theorem exec_call_full (nnn : Addr) (h : s.sp.val = 16) : exec (.call nnn) s = .fault .stackOverflow := by
  simp only [exec, execCall, State.push_of_full s _ h, raise_eq]

theorem exec_drw_next (x y : Reg) (n : Fin 16) (h : rangeOk s.i.toNat n.val = true) : exec (.drw x y n) s =
    .next (((s.setDisplay (blit s.display (s.reg x).toNat (s.reg y).toNat (s.mem.readBytes s.i.toNat n.val)).1).setFlag
      (blit s.display (s.reg x).toNat (s.reg y).toNat (s.mem.readBytes s.i.toNat n.val)).2).setPc (s.pc + 2)) := by
  simp only [exec, execDrw, h, if_true, next_eq]
  rfl

theorem exec_drw_fault (x y : Reg) (n : Fin 16) (h : rangeOk s.i.toNat n.val = false) :
    exec (.drw x y n) s = .fault .outOfBoundsAddress := by simp [exec, execDrw, h]

theorem exec_ldBVx_next (x : Reg) (h : rangeOk s.i.toNat 3 = true) : exec (.ldBVx x) s =
    .next ((s.setMem (s.mem.writeBytes s.i.toNat (bcdDigits (s.reg x)))).setPc (s.pc + 2)) := by
  simp only [exec, execLdBVx, h, if_true, next_eq, State.setMem_pc]

theorem exec_ldBVx_fault (x : Reg) (h : rangeOk s.i.toNat 3 = false) :
    exec (.ldBVx x) s = .fault .outOfBoundsAddress := by simp [exec, execLdBVx, h]

theorem exec_ldMemVx_next (x : Reg) (h : rangeOk s.i.toNat (x.val + 1) = true) : exec (.ldMemVx x) s =
    .next ((s.setMem (s.mem.writeBytes s.i.toNat (regsUpTo s.v x))).setPc (s.pc + 2)) := by
  simp only [exec, execLdMemVx, h, if_true, next_eq, State.setMem_pc]

theorem exec_ldMemVx_fault (x : Reg) (h : rangeOk s.i.toNat (x.val + 1) = false) :
    exec (.ldMemVx x) s = .fault .outOfBoundsAddress := by simp [exec, execLdMemVx, h]

theorem exec_ldVxMem_next (x : Reg) (h : rangeOk s.i.toNat (x.val + 1) = true) : exec (.ldVxMem x) s =
    .next ((s.setRegs (loadedRegs s.v s.mem s.i.toNat x)).setPc (s.pc + 2)) := by
  simp only [exec, execLdVxMem, h, if_true, next_eq, State.setRegs_pc]

theorem exec_ldVxMem_fault (x : Reg) (h : rangeOk s.i.toNat (x.val + 1) = false) :
    exec (.ldVxMem x) s = .fault .outOfBoundsAddress := by simp [exec, execLdVxMem, h]

theorem exec_ldVxK_next (x : Reg) (h : anyPressed s.keys = true) : exec (.ldVxK x) s =
    .next ((s.takeKeys.setReg x (keyByte (keySelect s.params.keySelect s.keys))).setPc (s.pc + 2)) := by
  simp only [exec, execLdVxK, nextOrWait_eq, h, if_true, State.setReg_pc, State.takeKeys_pc]

theorem exec_ldVxK_wait (x : Reg) (h : anyPressed s.keys = false) : exec (.ldVxK x) s = .next s.takeKeys := by
  simp [exec, execLdVxK, h]

/-- The pixels the loops of `DRW` toggle are those the sprite covers (R171, R172). -/
theorem mem_spritePixels_iff_covers (x y : Reg) (n : Fin 16) (px : Fin 64) (py : Fin 32) :
    (px, py) ∈ spritePixels (s.reg x).toNat (s.reg y).toNat 0 (s.mem.readBytes s.i.toNat n.val) ↔
      covers s x y n.val px py := by
  rw [mem_spritePixels]
  simp only [Memory.length_readBytes, Nat.zero_add, covers]
  refine exists_congr fun r => and_congr_right fun hr => ?_
  rw [List.getD_eq_getElem _ _ (by simpa using hr), Memory.getElem_readBytes]

end Sys2Proof.Machine
end

