-- ==== Sys2Proof/Laws/PerInstr.lean ====
section
/-! SUPPORT. The fields of an encoded opcode, and for every instruction: decoding its encoding gives it back. -/

namespace Sys2Proof

theorem toNat_append {m n : Nat} (a : BitVec m) (b : BitVec n) : (a ++ b).toNat = a.toNat * 2 ^ n + b.toNat := by
  rw [BitVec.toNat_append, Nat.shiftLeft_eq, Nat.mul_comm, Nat.two_pow_add_eq_or_of_lt b.isLt]

theorem toNat_regBits (r : Fin 16) : (regBits r).toNat = r.val := rfl

theorem toNat_encNNN (n1 : BitVec 4) (nnn : Addr) : (encNNN n1 nnn).toNat = n1.toNat * 4096 + nnn.toNat :=
  toNat_append n1 nnn

theorem toNat_encXKK (n1 : BitVec 4) (x : Reg) (kk : Byte) :
    (encXKK n1 x kk).toNat = n1.toNat * 4096 + x.val * 256 + kk.toNat := by
  rw [show encXKK n1 x kk = n1 ++ regBits x ++ kk from rfl, toNat_append, toNat_append, toNat_regBits]
  omega

theorem toNat_encXYN (n1 : BitVec 4) (x y n : Fin 16) :
    (encXYN n1 x y n).toNat = n1.toNat * 4096 + x.val * 256 + y.val * 16 + n.val := by
  rw [show encXYN n1 x y n = n1 ++ regBits x ++ regBits y ++ regBits n from rfl, toNat_append, toNat_append,
    toNat_append, toNat_regBits, toNat_regBits, toNat_regBits]
  omega

theorem nib1_eq (op : Word) : nib1 op = op.toNat / 4096 := by
  simp only [nib1, BitVec.extractLsb'_toNat, Nat.shiftRight_eq_div_pow]
  have := op.isLt
  omega

theorem fieldX_val (op : Word) : (fieldX op).val = op.toNat / 256 % 16 := by
  simp [fieldX, Nat.shiftRight_eq_div_pow]

theorem fieldY_val (op : Word) : (fieldY op).val = op.toNat / 16 % 16 := by
  simp [fieldY, Nat.shiftRight_eq_div_pow]

theorem fieldN_val (op : Word) : (fieldN op).val = op.toNat % 16 := by
  simp [fieldN]

theorem fieldKK_toNat (op : Word) : (fieldKK op).toNat = op.toNat % 256 := by
  simp [fieldKK, BitVec.extractLsb'_toNat]

theorem fieldNNN_toNat (op : Word) : (fieldNNN op).toNat = op.toNat % 4096 := by
  simp [fieldNNN, BitVec.extractLsb'_toNat]

section Encoded

variable (n1 : BitVec 4) (nnn : Addr) (x y n : Fin 16) (kk : Byte)

@[simp] theorem nib1_encNNN : nib1 (encNNN n1 nnn) = n1.toNat := by rw [nib1_eq, toNat_encNNN]; omega
@[simp] theorem fieldNNN_encNNN : fieldNNN (encNNN n1 nnn) = nnn := by
  apply BitVec.eq_of_toNat_eq; rw [fieldNNN_toNat, toNat_encNNN]; omega
@[simp] theorem nib1_encXKK : nib1 (encXKK n1 x kk) = n1.toNat := by rw [nib1_eq, toNat_encXKK]; omega
@[simp] theorem fieldX_encXKK : fieldX (encXKK n1 x kk) = x := by
  apply Fin.ext; rw [fieldX_val, toNat_encXKK]; omega
@[simp] theorem fieldKK_encXKK : fieldKK (encXKK n1 x kk) = kk := by
  apply BitVec.eq_of_toNat_eq; rw [fieldKK_toNat, toNat_encXKK]; omega
@[simp] theorem nib1_encXYN : nib1 (encXYN n1 x y n) = n1.toNat := by rw [nib1_eq, toNat_encXYN]; omega
@[simp] theorem fieldX_encXYN : fieldX (encXYN n1 x y n) = x := by
  apply Fin.ext; rw [fieldX_val, toNat_encXYN]; omega
@[simp] theorem fieldY_encXYN : fieldY (encXYN n1 x y n) = y := by
  apply Fin.ext; rw [fieldY_val, toNat_encXYN]; omega
@[simp] theorem fieldN_encXYN : fieldN (encXYN n1 x y n) = n := by
  apply Fin.ext; rw [fieldN_val, toNat_encXYN]; omega

end Encoded

/-- An opcode of family 0 whose low 12 bits are neither 0x0E0 nor 0x0EE is `SYS` (R81). -/
theorem decode0_encNNN {nnn : Addr} (h : (Instr.sys nnn).wf = true) :
    decode0 (encNNN 0x0#4 nnn) = .instr (.sys nnn) := by
  simp only [Instr.wf, Bool.and_eq_true, bne_iff_ne, ne_eq, ← BitVec.toNat_inj, BitVec.toNat_ofNat] at h
  unfold decode0
  rw [if_neg, if_neg, fieldNNN_encNNN]
  · simp only [← BitVec.toNat_inj, toNat_encNNN, BitVec.toNat_ofNat]; omega
  · simp only [← BitVec.toNat_inj, toNat_encNNN, BitVec.toNat_ofNat]; omega

end Sys2Proof

namespace Sys2Proof.Laws.RoundTrip

/-- Decoding the encoding of a well-formed instruction gives it back, whatever `STRICT_XY0` is (R89). -/
def Statement (i : Instr) : Prop := i.wf = true → ∀ strict, decode strict (encode i) = .instr i

theorem cls : Statement (.cls) := by intro _ s; cases s <;> decide
theorem ret : Statement (.ret) := by intro _ s; cases s <;> decide
theorem sys (nnn : Addr) : Statement (.sys nnn) := by
  intro h s; simp [encode, decode, decode0_encNNN h]
theorem jp (nnn : Addr) : Statement (.jp nnn) := by
  intro _ s; simp [encode, decode]
theorem call (nnn : Addr) : Statement (.call nnn) := by
  intro _ s; simp [encode, decode]
theorem seImm (x : Reg) (kk : Byte) : Statement (.seImm x kk) := by
  intro _ s; simp [encode, decode]
theorem sneImm (x : Reg) (kk : Byte) : Statement (.sneImm x kk) := by
  intro _ s; simp [encode, decode]
theorem seReg (x y : Reg) : Statement (.seReg x y) := by
  intro _ s; simp [encode, decode, decodeXY0]
theorem ldImm (x : Reg) (kk : Byte) : Statement (.ldImm x kk) := by
  intro _ s; simp [encode, decode]
theorem addImm (x : Reg) (kk : Byte) : Statement (.addImm x kk) := by
  intro _ s; simp [encode, decode]
theorem ldReg (x y : Reg) : Statement (.ldReg x y) := by
  intro _ s; simp [encode, decode, decode8]
theorem orReg (x y : Reg) : Statement (.orReg x y) := by
  intro _ s; simp [encode, decode, decode8]
theorem andReg (x y : Reg) : Statement (.andReg x y) := by
  intro _ s; simp [encode, decode, decode8]
theorem xorReg (x y : Reg) : Statement (.xorReg x y) := by
  intro _ s; simp [encode, decode, decode8]
theorem addReg (x y : Reg) : Statement (.addReg x y) := by
  intro _ s; simp [encode, decode, decode8]
theorem subReg (x y : Reg) : Statement (.subReg x y) := by
  intro _ s; simp [encode, decode, decode8]
theorem shr (x : Reg) : Statement (.shr x) := by
  intro _ s; simp [encode, decode, decode8]
theorem subnReg (x y : Reg) : Statement (.subnReg x y) := by
  intro _ s; simp [encode, decode, decode8]
theorem shl (x : Reg) : Statement (.shl x) := by
  intro _ s; simp [encode, decode, decode8]
theorem sneReg (x y : Reg) : Statement (.sneReg x y) := by
  intro _ s; simp [encode, decode, decodeXY0]
theorem ldI (nnn : Addr) : Statement (.ldI nnn) := by
  intro _ s; simp [encode, decode]
theorem jpV0 (nnn : Addr) : Statement (.jpV0 nnn) := by
  intro _ s; simp [encode, decode]
theorem rnd (x : Reg) (kk : Byte) : Statement (.rnd x kk) := by
  intro _ s; simp [encode, decode]
theorem drw (x y : Reg) (n : Fin 16) : Statement (.drw x y n) := by
  intro _ s; simp [encode, decode]
theorem skp (x : Reg) : Statement (.skp x) := by
  intro _ s; simp [encode, decode, decodeE]
theorem sknp (x : Reg) : Statement (.sknp x) := by
  intro _ s; simp [encode, decode, decodeE]
theorem ldVxDt (x : Reg) : Statement (.ldVxDt x) := by
  intro _ s; simp [encode, decode, decodeF]
theorem ldVxK (x : Reg) : Statement (.ldVxK x) := by
  intro _ s; simp [encode, decode, decodeF]
theorem ldDtVx (x : Reg) : Statement (.ldDtVx x) := by
  intro _ s; simp [encode, decode, decodeF]
theorem ldStVx (x : Reg) : Statement (.ldStVx x) := by
  intro _ s; simp [encode, decode, decodeF]
theorem addIVx (x : Reg) : Statement (.addIVx x) := by
  intro _ s; simp [encode, decode, decodeF]
theorem ldFVx (x : Reg) : Statement (.ldFVx x) := by
  intro _ s; simp [encode, decode, decodeF]
theorem ldBVx (x : Reg) : Statement (.ldBVx x) := by
  intro _ s; simp [encode, decode, decodeF]
theorem ldMemVx (x : Reg) : Statement (.ldMemVx x) := by
  intro _ s; simp [encode, decode, decodeF]
theorem ldVxMem (x : Reg) : Statement (.ldVxMem x) := by
  intro _ s; simp [encode, decode, decodeF]

end Sys2Proof.Laws.RoundTrip
end

