-- ==== Sys2Proof/Machine/Text.lean ====
section
/-! DEFINITION. The assembler forms of R86: how an instruction is written. Nothing of the machine depends on it (D31);
there are no pseudo-instructions (R87). -/

namespace Sys2Proof.Machine

/-- One hexadecimal digit. -/
def hexDigit (d : Fin 16) : Char :=
  Vector.get ⟨#['0', '1', '2', '3', '4', '5', '6', '7', '8', '9', 'A', 'B', 'C', 'D', 'E', 'F'], rfl⟩ d

/-- A register: "written `V0` to `V9`, `VA` to `VF`". -/
def regText (r : Reg) : List Char := ['V', hexDigit r]

/-- A number in hexadecimal, with its prefix. -/
def hexText (digits : List (Fin 16)) : List Char := '0' :: 'x' :: digits.map hexDigit

/-- An 8-bit number. -/
def byteText (b : Byte) : List Char := hexText [(b.extractLsb' 4 4).toFin, (b.extractLsb' 0 4).toFin]

/-- A 12-bit number. -/
def addrText (a : Addr) : List Char :=
  hexText [(a.extractLsb' 8 4).toFin, (a.extractLsb' 4 4).toFin, (a.extractLsb' 0 4).toFin]

/-- A mnemonic and its operands, "separated by a comma; the destination is the first operand". -/
def asmText (mnemonic : String) (operands : List (List Char)) : String :=
  match operands with
  | [] => mnemonic
  | _ => String.ofList (mnemonic.toList ++ ' ' :: List.intercalate [','] operands)

/-- The form of each instruction, the column "mnemonic" of R80 with the operands filled in. -/
def instrText : Instr → String
  | .cls => asmText "CLS" []
  | .ret => asmText "RET" []
  | .sys nnn => asmText "SYS" [addrText nnn]
  | .jp nnn => asmText "JP" [addrText nnn]
  | .call nnn => asmText "CALL" [addrText nnn]
  | .seImm x kk => asmText "SE" [regText x, byteText kk]
  | .sneImm x kk => asmText "SNE" [regText x, byteText kk]
  | .seReg x y => asmText "SE" [regText x, regText y]
  | .ldImm x kk => asmText "LD" [regText x, byteText kk]
  | .addImm x kk => asmText "ADD" [regText x, byteText kk]
  | .ldReg x y => asmText "LD" [regText x, regText y]
  | .orReg x y => asmText "OR" [regText x, regText y]
  | .andReg x y => asmText "AND" [regText x, regText y]
  | .xorReg x y => asmText "XOR" [regText x, regText y]
  | .addReg x y => asmText "ADD" [regText x, regText y]
  | .subReg x y => asmText "SUB" [regText x, regText y]
  | .shr x => asmText "SHR" [regText x]
  | .subnReg x y => asmText "SUBN" [regText x, regText y]
  | .shl x => asmText "SHL" [regText x]
  | .sneReg x y => asmText "SNE" [regText x, regText y]
  | .ldI nnn => asmText "LD" [['I'], addrText nnn]
  | .jpV0 nnn => asmText "JP" [['V', '0'], addrText nnn]
  | .rnd x kk => asmText "RND" [regText x, byteText kk]
  | .drw x y n => asmText "DRW" [regText x, regText y, hexText [n]]
  | .skp x => asmText "SKP" [regText x]
  | .sknp x => asmText "SKNP" [regText x]
  | .ldVxDt x => asmText "LD" [regText x, ['D', 'T']]
  | .ldVxK x => asmText "LD" [regText x, ['K']]
  | .ldDtVx x => asmText "LD" [['D', 'T'], regText x]
  | .ldStVx x => asmText "LD" [['S', 'T'], regText x]
  | .addIVx x => asmText "ADD" [['I'], regText x]
  | .ldFVx x => asmText "LD" [['F'], regText x]
  | .ldBVx x => asmText "LD" [['B'], regText x]
  | .ldMemVx x => asmText "LD" [['[', 'I', ']'], regText x]
  | .ldVxMem x => asmText "LD" [regText x, ['[', 'I', ']']]

end Sys2Proof.Machine
end

