-- ==== Sys2Proof/Tests/Slice0.lean ====
section
/-! SUPPORT. Tests: expected values from the examples of the rules and the vectors of spec/95_test_vectors.md (named in
the comments), and witnesses that the hypotheses of the statements can be met together. -/

namespace Sys2Proof.Tests

open Sys2Proof.Machine

/-- The state after one step with an opcode at `pc`, where the step completes. -/
def run1 (s : State) (w : Nat) : Option State :=
  match step (s.withFetchWord 16 w) with
  | .next t => some t
  | .fault _ | .refused _ => none

/-- The error of one step with an opcode at `pc`. -/
def err1 (s : State) (w : Nat) : Option Fault :=
  match step (s.withFetchWord 16 w) with
  | .fault e => some e
  | .next _ | .refused _ => none

/-- The outcome is a next state. -/
def isNext : Out → Bool
  | .next _ => true
  | .fault _ | .refused _ => false

/-- The error of an outcome. -/
def faultOf : Out → Option Fault
  | .fault e => some e
  | .next _ | .refused _ => none

theorem next_of_isNext {o : Out} (h : isNext o = true) : ∃ t, o = .next t := by
  cases o with
  | next t => exact ⟨t, rfl⟩
  | fault e => cases h
  | refused r => cases h

/-- The state after reset with the first registers set. -/
def regs2 (a b : Byte) : State := (State.reset.setReg 0 a).setReg 1 b

/-- The keys with the numbers of a list pressed. -/
def keysOf (ks : List (Fin 16)) : Config.Keys := Vector.ofFn fun k => ks.contains k

/-- The state after reset with a key vector supplied. -/
def withKeys (ks : List (Fin 16)) : State := { State.reset with keyInputs := [keysOf ks] }

/-- The pixels of a display, as numbers of lit columns and rows. -/
def lit (t : State) : List (Nat × Nat) :=
  (List.finRange 64).flatMap fun px =>
    ((List.finRange 32).filter fun py => t.pixel px py).map fun py => (px.val, py.val)

/-! ### Well-formedness and decoding -/

/-- 0x00E0 and 0x00EE are not `SYS` (R81); the check refuses both terms and takes the next value. -/
theorem test_wf_sys_refused : (Instr.sys 0x0E0#12).wf = false ∧ (Instr.sys 0x0EE#12).wf = false ∧
    (Instr.sys 0x0E1#12).wf = true := by decide

/-- Section 2.1 of the vectors, families 0 to 7; one opcode written out bit by bit: 0011 0000 0101 0101. -/
theorem test_decode_low_families : decodeTableWord 16 0x00E0 = some .cls ∧ decodeTableWord 16 0x00EE = some .ret ∧
    decodeTableWord 16 0x0000 = some (.sys 0#12) ∧ decodeTableWord 16 0x0FFF = some (.sys 0xFFF#12) ∧
    decodeTableWord 16 0x1ABC = some (.jp 0xABC#12) ∧ decodeTableWord 16 0x2ABC = some (.call 0xABC#12) ∧
    decodeTableWord 16 0b0011000001010101 = some (.seImm 0 0x55#8) ∧
    decodeTableWord 16 0x4A42 = some (.sneImm 10 0x42#8) ∧ decodeTableWord 16 0x5AB7 = some (.seReg 10 11) ∧
    decodeTableWord 16 0x6A42 = some (.ldImm 10 0x42#8) ∧ decodeTableWord 16 0x7A42 = some (.addImm 10 0x42#8) := by
  decide

/-- Section 2.1, families 8 and 9. -/
theorem test_decode_alu_family : decodeTableWord 16 0x8AB0 = some (.ldReg 10 11) ∧
    decodeTableWord 16 0x8AB1 = some (.orReg 10 11) ∧ decodeTableWord 16 0x8AB2 = some (.andReg 10 11) ∧
    decodeTableWord 16 0x8AB3 = some (.xorReg 10 11) ∧ decodeTableWord 16 0x8AB4 = some (.addReg 10 11) ∧
    decodeTableWord 16 0x8AB5 = some (.subReg 10 11) ∧ decodeTableWord 16 0x8AB6 = some (.shr 10) ∧
    decodeTableWord 16 0x8AB7 = some (.subnReg 10 11) ∧ decodeTableWord 16 0x8ABE = some (.shl 10) ∧
    decodeTableWord 16 0x8AB8 = none ∧ decodeTableWord 16 0x8ABF = none ∧
    decodeTableWord 16 0x9AB1 = some (.sneReg 10 11) := by decide

/-- Section 2.1, families A to F. -/
theorem test_decode_high_families : decodeTableWord 16 0xA123 = some (.ldI 0x123#12) ∧
    decodeTableWord 16 0xB123 = some (.jpV0 0x123#12) ∧ decodeTableWord 16 0xC30F = some (.rnd 3 0x0F#8) ∧
    decodeTableWord 16 0xD125 = some (.drw 1 2 5) ∧ decodeTableWord 16 0xE39E = some (.skp 3) ∧
    decodeTableWord 16 0xE3A1 = some (.sknp 3) ∧ decodeTableWord 16 0xE30E = none ∧
    decodeTableWord 16 0xF307 = some (.ldVxDt 3) ∧ decodeTableWord 16 0xF30A = some (.ldVxK 3) ∧
    decodeTableWord 16 0xF315 = some (.ldDtVx 3) ∧ decodeTableWord 16 0xF318 = some (.ldStVx 3) ∧
    decodeTableWord 16 0xF31E = some (.addIVx 3) ∧ decodeTableWord 16 0xF329 = some (.ldFVx 3) ∧
    decodeTableWord 16 0xF333 = some (.ldBVx 3) ∧ decodeTableWord 16 0xF355 = some (.ldMemVx 3) ∧
    decodeTableWord 16 0xF365 = some (.ldVxMem 3) ∧ decodeTableWord 16 0xF385 = none := by decide

/-- Section 2.1: with `STRICT_XY0` the opcode 0x5AB7 is unknown, 0x5AB0 is not. -/
theorem test_decode_strict : decode true 0x5AB7#16 = .unknown 0x5AB7#16 ∧
    decode true 0x5AB0#16 = .instr (.seReg 10 11) ∧ decode true 0x9AB1#16 = .unknown 0x9AB1#16 := by decide

/-- R89, R82: the canonical form of an opcode with an ignored field. -/
theorem test_encode_canonical : encode (.shr 10) = 0x8A06#16 ∧ canonical 0x8AB6#16 = 0x8A06#16 ∧
    canonical 0x5AB7#16 = 0x5AB0#16 ∧ encodeVariant (.unknown 0x8018#16) = 0x8018#16 := by decide

/-- The decoder takes two bytes and leaves the rest; one byte is no opcode (R70). -/
theorem test_decode_bytes : decodeBytes false [0x60#8, 0x2A#8, 0x11#8] = some (.instr (.ldImm 0 0x2A#8), [0x11#8]) ∧
    decodeBytes false [0x60#8] = none := by decide

/-! ### Memory -/

/-- R86: the forms as the examples of the spec write them. -/
theorem test_text : instrText (.seImm 0 0x55#8) = "SE V0,0x55" ∧ instrText (.ldVxMem 10) = "LD VA,[I]" ∧
    instrText (.jpV0 0x300#12) = "JP V0,0x300" ∧ instrText .cls = "CLS" := by decide

/-- Writing the byte an unlisted address reads as removes the cell; the font byte 0x90 stands at address 1. -/
theorem test_memory_canonical : Memory.write (Memory.write [] 0x300 7#8) 0x300 0#8 = [] ∧
    Memory.write [] 1 0x90#8 = [] ∧ Memory.write (Memory.write [] 5 1#8) 3 2#8 = [(3, 2#8), (5, 1#8)] ∧
    Memory.wf [(3, 2#8), (5, 1#8)] = true ∧ Memory.wf [(5, 1#8), (3, 2#8)] = false ∧
    Memory.wf [(0x300, 0#8)] = false ∧ Memory.wf [(4096, 1#8)] = false := by decide

/-! ### Control flow (section 2.3) -/

theorem test_cls : (run1 ((State.reset.setDisplay (Display.set Display.clear 63 31 true)).setReg 15 1#8) 0x00E0).map
    (fun t => (t.pixel 63 31, t.reg 15, t.pc)) = some (false, 1#8, 0x202#16) := by decide

theorem test_ret_full : (run1 (State.reset.setStack (Vector.replicate 16 0x300#16) 16) 0x00EE).map
    (fun t => (t.sp, t.pc, t.stack[15])) = some (15, 0x300#16, 0x300#16) := by decide

theorem test_ret_empty : err1 State.reset 0x00EE = some .stackUnderflow := by decide

theorem test_sys : run1 State.reset 0x0123 = some ((State.reset.withFetchWord 16 0x0123).setPc 0x202#16) := by decide

theorem test_jp_odd : (run1 State.reset 0x1001).map (fun t => t.pc) = some 0x001#16 := by decide

theorem test_call_last_entry : (run1 (State.reset.setStack (Vector.replicate 16 0#16) 15) 0x2300).map
    (fun t => (t.sp, t.stack[15], t.stack[14], t.pc)) = some (16, 0x202#16, 0#16, 0x300#16) := by decide

theorem test_call_full : err1 (State.reset.setStack (Vector.replicate 16 0#16) 16) 0x2300 = some .stackOverflow := by
  decide

theorem test_jpV0_past_memory : (run1 (State.reset.setReg 0 0xFF#8) 0xBFFF).map (fun t => t.pc) = some 0x10FE#16 := by
  decide

/-! ### Conditional skips (section 2.4) -/

/-- T7: the source's own scenario. -/
theorem test_seImm : (run1 (regs2 0x55#8 0#8) 0x3055).map (fun t => t.pc) = some 0x204#16 ∧
    (run1 (regs2 0x55#8 0#8) 0x3066).map (fun t => t.pc) = some 0x202#16 := by decide

theorem test_sneImm : (run1 (regs2 0x55#8 0#8) 0x4066).map (fun t => t.pc) = some 0x204#16 ∧
    (run1 (regs2 0x55#8 0#8) 0x4055).map (fun t => t.pc) = some 0x202#16 := by decide

theorem test_seReg : (run1 (regs2 7#8 7#8) 0x5015).map (fun t => t.pc) = some 0x204#16 ∧
    (run1 (regs2 7#8 8#8) 0x5010).map (fun t => t.pc) = some 0x202#16 := by decide

theorem test_sneReg : (run1 (regs2 7#8 8#8) 0x9010).map (fun t => t.pc) = some 0x204#16 ∧
    (run1 (regs2 7#8 7#8) 0x9010).map (fun t => t.pc) = some 0x202#16 := by decide

/-- V3 = 0x1A: the low four bits name key 0xA. -/
theorem test_skp : (run1 ((withKeys [10]).setReg 3 0x1A#8) 0xE39E).map (fun t => t.pc) = some 0x204#16 ∧
    (run1 ((withKeys [11]).setReg 3 0x0A#8) 0xE39E).map (fun t => t.pc) = some 0x202#16 := by decide

theorem test_sknp : (run1 ((withKeys [10]).setReg 3 0x0A#8) 0xE3A1).map (fun t => t.pc) = some 0x202#16 ∧
    (run1 ((withKeys []).setReg 3 0x0A#8) 0xE3A1).map (fun t => t.pc) = some 0x204#16 := by decide

/-! ### Immediates (section 2.5) -/

theorem test_ldImm_vf : (run1 State.reset 0x6FAB).map (fun t => (t.reg 15, t.pc)) = some (0xAB#8, 0x202#16) := by decide

theorem test_addImm_wraps : (run1 (regs2 0#8 0xFF#8) 0x7101).map (fun t => (t.reg 1, t.reg 15)) = some (0#8, 0#8) := by
  decide

theorem test_ldI : (run1 State.reset 0xA2F0).map (fun t => t.i) = some 0x2F0#16 := by decide

theorem test_rnd : (run1 { State.reset with rndInputs := [0xA7#8, 1#8] } 0xC20F).map
    (fun t => (t.reg 2, t.rndInputs)) = some (0x07#8, [1#8]) := by decide

/-! ### ALU (section 2.6 and R161) -/

theorem test_ldReg : (run1 (regs2 0x11#8 0x22#8) 0x8010).map (fun t => (t.reg 0, t.reg 1)) = some (0x22#8, 0x22#8) := by
  decide

theorem test_orReg : (run1 (regs2 0xF0#8 0x0F#8) 0x8011).map (fun t => (t.reg 0, t.reg 15)) = some (0xFF#8, 0#8) := by
  decide

theorem test_andReg : (run1 (regs2 0xF0#8 0x3C#8) 0x8012).map (fun t => t.reg 0) = some 0x30#8 := by decide

theorem test_xorReg : (run1 (regs2 0xF0#8 0x3C#8) 0x8013).map (fun t => t.reg 0) = some 0xCC#8 := by decide

theorem test_addReg_carry : (run1 (regs2 255#8 1#8) 0x8014).map (fun t => (t.reg 0, t.reg 15)) = some (0#8, 1#8) ∧
    (run1 (regs2 254#8 1#8) 0x8014).map (fun t => (t.reg 0, t.reg 15)) = some (255#8, 0#8) := by decide

/-- The flag wins where VF is the destination; the operand is the old VF where VF is the source. -/
theorem test_addReg_vf : (run1 ((regs2 0#8 255#8).setReg 15 255#8) 0x8F14).map (fun t => t.reg 15) = some 1#8 ∧
    (run1 ((regs2 0#8 250#8).setReg 15 10#8) 0x81F4).map (fun t => (t.reg 1, t.reg 15)) = some (4#8, 1#8) := by decide

theorem test_subReg : (run1 (regs2 3#8 5#8) 0x8015).map (fun t => (t.reg 0, t.reg 15)) = some (0xFE#8, 0#8) ∧
    (run1 (regs2 7#8 7#8) 0x8015).map (fun t => (t.reg 0, t.reg 15)) = some (0#8, 1#8) := by decide

theorem test_subnReg : (run1 (regs2 3#8 5#8) 0x8017).map (fun t => (t.reg 0, t.reg 15)) = some (2#8, 1#8) ∧
    (run1 (regs2 1#8 0#8) 0x8017).map (fun t => (t.reg 0, t.reg 15)) = some (0xFF#8, 0#8) := by decide

theorem test_shr : (run1 (regs2 5#8 0xFF#8) 0x8016).map (fun t => (t.reg 0, t.reg 1, t.reg 15)) =
    some (2#8, 0xFF#8, 1#8) ∧ (run1 (State.reset.setReg 15 2#8) 0x8F06).map (fun t => t.reg 15) = some 0#8 := by decide

theorem test_shl : (run1 (regs2 0x81#8 0#8) 0x800E).map (fun t => (t.reg 0, t.reg 15)) = some (2#8, 1#8) ∧
    (run1 (State.reset.setReg 15 0x7F#8) 0x8F0E).map (fun t => t.reg 15) = some 0#8 := by decide

/-! ### Sprites (R175, section 2.7) -/

/-- The state of R175: sprite F0 90 at 0x300, V0 = 62, V1 = 31. -/
def r175 : State := ((regs2 62#8 31#8).setI 0x300#16).setMem (Memory.writeBytes [] 0x300 [0xF0#8, 0x90#8])

theorem test_drw_wraps : (run1 r175 0xD012).map (fun t => (lit t, t.reg 15, t.i)) =
    some ([(0, 31), (1, 0), (1, 31), (62, 0), (62, 31), (63, 31)], 0#8, 0x300#16) := by decide

theorem test_drw_collides : ((run1 r175 0xD012).bind fun t => run1 t 0xD012).map (fun t => (lit t, t.reg 15)) =
    some ([], 1#8) := by decide

/-! ### Timers, keys, index, memory (section 2.8) -/

theorem test_ldVxDt : (run1 (State.reset.setDt 0x3C#8) 0xF507).map (fun t => (t.reg 5, t.dt)) = some (0x3C#8, 0x3C#8) :=
  by decide

theorem test_ldVxK : (run1 (withKeys [9, 3]) 0xF20A).map (fun t => (t.reg 2, t.pc)) = some (3#8, 0x202#16) ∧
    (run1 (withKeys []) 0xF20A).map (fun t => (t.reg 2, t.pc)) = some (0#8, 0x200#16) := by decide

theorem test_ldDtVx : (run1 (State.reset.setReg 5 0x3C#8) 0xF515).map (fun t => (t.dt, t.st)) = some (0x3C#8, 0#8) := by
  decide

theorem test_ldStVx : (run1 (State.reset.setReg 5 2#8) 0xF518).map (fun t => (t.st, t.dt, beep t)) =
    some (2#8, 0#8, true) := by decide

theorem test_addIVx : (run1 ((regs2 0#8 2#8).setI 0xFFFF#16) 0xF11E).map (fun t => t.i) = some 1#16 ∧
    (run1 ((regs2 0#8 1#8).setI 0x0FFF#16) 0xF11E).map (fun t => (t.i, t.reg 15)) = some (0x1000#16, 0#8) := by decide

theorem test_ldFVx : (run1 (regs2 0x1A#8 0#8) 0xF029).map (fun t => t.i) = some 0x32#16 ∧
    (run1 (regs2 0x0F#8 0#8) 0xF029).map (fun t => t.i) = some 0x4B#16 := by decide

theorem test_ldBVx : (run1 ((regs2 123#8 0#8).setI 0xFFD#16) 0xF033).map
    (fun t => t.mem.readBytes 0xFFD 3) = some [1#8, 2#8, 3#8] := by decide

theorem test_ldBVx_out : err1 (State.reset.setI 0xFFE#16) 0xF033 = some .outOfBoundsAddress := by decide

theorem test_ldMemVx : (run1 ((regs2 0x11#8 0x22#8).setI 0x400#16) 0xF155).map
    (fun t => (t.mem.readBytes 0x3FF 4, t.i)) = some ([0#8, 0x11#8, 0x22#8, 0#8], 0x400#16) := by decide

theorem test_ldMemVx_out : err1 (State.reset.setI 0xFF1#16) 0xFF55 = some .outOfBoundsAddress ∧
    isNext (step ((State.reset.setI 0xFF0#16).withFetchWord 16 0xFF55)) = true := by decide

/-- `LD V2,[I]` at the font sprite of digit 0 leaves V3. -/
theorem test_ldVxMem : (run1 (State.reset.setReg 3 9#8) 0xF265).map
    (fun t => (t.reg 0, t.reg 1, t.reg 2, t.reg 3)) = some (0xF0#8, 0x90#8, 0x90#8, 9#8) := by decide

theorem test_ldVxMem_out : err1 (State.reset.setI 0xFFF#16) 0xF165 = some .outOfBoundsAddress := by decide

/-! ### Step, host operations and reset (sections 2.2 and 2.9) -/

/-- `pc` = 0 after reset's font: the opcode there is 0xF090, which is unknown. -/
theorem test_step_unknown : faultOf (step (State.reset.setPc 0#16)) = some (.unimplementedOpcode 0xF090#16) := by decide

theorem test_step_end_of_memory : faultOf (step (State.reset.setPc 0xFFF#16)) = some .outOfBoundsAddress ∧
    isNext (step (State.reset.setPc 0xFFE#16)) = true := by decide

theorem test_timerTick : (timerTick ((State.reset.setDt 255#8).setSt 0#8)).dt = 254#8 ∧
    (timerTick ((State.reset.setDt 255#8).setSt 0#8)).st = 0#8 := by decide

/-- T6: the seven bytes are at 0x200 to 0x206. -/
theorem test_loadProgram : ((perform (.loadProgram [1, 2, 3, 4, 5, 6, 7]) State.reset).1.mem.readBytes 0x1FF 9) =
    [0#8, 1#8, 2#8, 3#8, 4#8, 5#8, 6#8, 7#8, 0#8] ∧
    (perform (.loadProgram [1, 2, 3, 4, 5, 6, 7]) State.reset).2 = .ok := by decide

theorem test_loadProgram_too_large : (loadProgram (List.replicate 3585 0#8) State.reset).2 = .err .programTooLarge ∧
    (loadProgram (List.replicate 3584 0#8) State.reset).2 = .ok := by
  constructor
  · rw [loadProgram, if_pos (by rw [List.length_replicate]; decide)]
  · rw [loadProgram, if_neg (by rw [List.length_replicate]; decide)]

/-- P6, operations 1 and 4: the wait, and the lowest of keys 3 and 9. -/
theorem test_tick_waits : (tickWith (keysOf []) 0#8 (State.reset.withFetchWord 16 0xF00A)).2 = .waiting ∧
    (tickWith (keysOf [3, 9]) 0#8 (State.reset.withFetchWord 16 0xF00A)).2 = .ok ∧
    (tickWith (keysOf [3, 9]) 0#8 (State.reset.withFetchWord 16 0xF00A)).1.reg 0 = 3#8 := by decide

/-! ### Witnesses: the hypotheses of the statements can be met together -/

theorem reset_inv : Inv State.reset := ⟨by decide, by decide, by decide, by decide⟩

/-- StepRunsDecodedInstruction, StepKeepsInvariant, FrameOfEveryInstruction, PcAfterInstruction, PlacedOpcodeRuns. -/
theorem witness_step : Inv State.reset ∧ State.reset.pc.toNat ≤ 4094 ∧
    decode State.reset.params.strictXY0 (State.reset.mem.read State.reset.pc.toNat ++
      State.reset.mem.read (State.reset.pc.toNat + 1)) = .instr (.sys 0#12) ∧
    (∃ t, exec (.sys 0#12) State.reset = .next t) ∧ ∃ t, step State.reset = .next t :=
  ⟨reset_inv, by decide, by decide, ⟨_, rfl⟩, next_of_isNext (by decide)⟩

/-- DecodeEncodeRoundTrip, at the value next to the two that are not `SYS`. -/
theorem witness_wf : (Instr.sys 0x0EF#12).wf = true ∧ (Instr.drw 15 15 15).wf = true := by decide

/-- StepFetchOutOfBounds at its lowest `pc`; StepUnknownOpcode. -/
theorem witness_step_errors : (State.reset.setPc 4095#16).pc.toNat > 4094 ∧ (State.reset.setPc 0#16).pc.toNat ≤ 4094 ∧
    decode false ((State.reset.setPc 0#16).mem.read 0 ++ (State.reset.setPc 0#16).mem.read 1) =
      .unknown 0xF090#16 := by decide

/-- StepErrorsExactly: each error where its cause holds, at the boundary. -/
theorem witness_errors : err1 (State.reset.setStack (Vector.replicate 16 0#16) 16) 0x2000 = some .stackOverflow ∧
    err1 State.reset 0x00EE = some .stackUnderflow ∧
    err1 (State.reset.setI 0xFFE#16) 0xD013 = some .outOfBoundsAddress ∧
    err1 (State.reset.setI 0xFFF#16) 0xF155 = some .outOfBoundsAddress ∧
    err1 State.reset 0x8018 = some (.unimplementedOpcode 0x8018#16) := by decide

/-- ErrorLeavesStateUnchanged and RetryFailsAgain. -/
theorem witness_error_result : (perform (.tick (keysOf []) 0#8) (State.reset.setPc 0#16)).2 =
    .err (.unimplementedOpcode 0xF090#16) := by decide

/-- ResetValues: the operation on a machine with its own low memory, and the state after reset. -/
theorem witness_reset : State.reset.params = Config.Params.default ∧
    (perform .reset (regs2 1#8 2#8)).1 = State.reset ∧
    paramsWf { Config.Params.default with lowMem := [(0x1FF, 7#8)] } = true ∧
    (perform .reset { State.reset with params := { Config.Params.default with lowMem := [(0x1FF, 7#8)] } }).2 = .ok := by
  decide

/-- FlagIsZeroOrOne, DrwOutOfBounds, DrwBlits (with no row and with the last row at 4095). -/
theorem witness_draw : isNext (exec (.drw 0 1 0) (State.reset.setI 0xFFFF#16)) = true ∧
    isNext (exec (.drw 0 1 3) (State.reset.setI 0xFFD#16)) = true ∧
    faultOf (exec (.drw 0 1 3) (State.reset.setI 0xFFE#16)) = some .outOfBoundsAddress ∧
    isNext (exec (.addReg 15 15) State.reset) = true := by decide

/-- DrwTwiceRestores: two draws that leave the coordinates, with y = 15 where the flag is what VF was. -/
theorem witness_draw_twice : ∃ t u, exec (.drw 0 15 5) State.reset = .next t ∧ t.reg 0 = State.reset.reg 0 ∧
    t.reg 15 = State.reset.reg 15 ∧ exec (.drw 0 15 5) t = .next u := by
  refine ⟨_, _, rfl, by decide, by decide, rfl⟩

/-- InputsReadOnlyBy, MemoryUsedOnlyBy, TimerRegisterRules: an instruction that is none of those named. -/
theorem witness_not_named : ∀ (x y : Reg) (n : Fin 16) (kk : Byte), Instr.cls ≠ .skp x ∧ Instr.cls ≠ .sknp x ∧
    Instr.cls ≠ .ldVxK x ∧ Instr.cls ≠ .rnd x kk ∧ Instr.cls ≠ .drw x y n ∧ Instr.cls ≠ .ldVxMem x ∧
    Instr.cls ≠ .ldBVx x ∧ Instr.cls ≠ .ldMemVx x ∧ Instr.cls ≠ .ldStVx x ∧ Instr.cls ≠ .ldDtVx x := by
  intros; simp

/-- StoreSeenByNextFetch: P5's store of 12 08 over the following instruction. -/
theorem witness_self_modifying : (regs2 0x12#8 8#8 |>.setI 0x202#16).i = (regs2 0x12#8 8#8).pc + 2 ∧
    isNext (exec (.ldMemVx 1) (regs2 0x12#8 8#8 |>.setI 0x202#16)) = true := by decide

/-- RetPops and CallPushes: empty, one entry, fifteen entries, full. -/
theorem witness_stack : (State.reset.sp.val = 0) ∧
    (State.reset.setStack State.reset.stack 1).sp.val = (0 : Fin 16).val + 1 ∧
    (State.reset.setStack State.reset.stack 16).sp.val = (15 : Fin 16).val + 1 ∧
    (State.reset.setStack State.reset.stack 15).sp.val = (15 : Fin 16).val := by decide

/-- CallThenRetReturns: the subroutine made a `CALL` of its own and came back, so the stack above `sp` has changed. -/
theorem witness_call : ∃ t a u, exec (.call 0x300#12) State.reset = .next t ∧ exec (.call 0x400#12) t = .next a ∧
    exec .ret a = .next u ∧ u.sp = t.sp ∧ u.stack[0] = t.stack[0] ∧ u.stack ≠ t.stack := by
  refine ⟨_, _, _, rfl, rfl, rfl, ?_⟩
  decide

/-- SeImmSkipsIfEqual and the other compares: equal and not equal. -/
theorem witness_compare : State.reset.reg 0 = 0#8 ∧ (regs2 1#8 2#8).reg 0 ≠ 0#8 ∧
    (regs2 1#8 2#8).reg 0 ≠ (regs2 1#8 2#8).reg 1 ∧ State.reset.reg 0 = State.reset.reg 1 := by decide

/-- KeySkips and KeyWait: a key pressed, and none; the opcode at `pc` for the clauses about a `Tick`. -/
theorem witness_keys : (15 : Fin 16).val = ((withKeys [15]).setReg 3 0xFF#8 |>.reg 3).toNat % 16 ∧
    (withKeys [15]).keys[15] = true ∧ (∀ k : Fin 16, (withKeys []).keys[k.val] = false) ∧
    (withKeys []).params.keySelect = .lowest ∧ (withKeys [15]).keyInputs = keysOf [15] :: [] ∧
    decode false (State.reset.withFetchWord 16 0xE39E).opcodeAtPc = .instr (.skp 3) ∧
    decode false (State.reset.withFetchWord 16 0xE3A1).opcodeAtPc = .instr (.sknp 3) ∧
    decode false (State.reset.withFetchWord 16 0xF30A).opcodeAtPc = .instr (.ldVxK 3) := by decide

/-- RndMasksRandomByte: two bytes supplied, and none; the opcode at `pc` for the clause about a `Tick`. -/
theorem witness_rnd : ({ State.reset with rndInputs := [0xA7#8, 1#8] } : State).rndInputs = 0xA7#8 :: [1#8] ∧
    State.reset.rndInputs = [] ∧ (State.reset.withFetchWord 16 0xC20F).pc.toNat ≤ 4094 ∧
    decode false (State.reset.withFetchWord 16 0xC20F).opcodeAtPc = .instr (.rnd 2 0x0F#8) := by decide

/-- ZeroedMemoryRun: the last opcode of memory, after which `pc` is 4096. -/
theorem witness_zeroed : (State.reset.setPc 4094#16).pc.toNat + 2 * 1 ≤ 4096 ∧
    (State.reset.setPc 4094#16).pc.toNat + 2 * 1 > 4094 ∧
    (∀ a, 4094 ≤ a → a < 4094 + 2 * 1 → (State.reset.setPc 4094#16).mem.read a = 0#8) := by
  refine ⟨by decide, by decide, fun a h h' => ?_⟩
  obtain rfl | rfl : a = 4094 ∨ a = 4095 := by omega
  all_goals decide

/-- AddRegResult and its like: a destination that is not VF; LdFPointsAtSprite: parameters that obey D4. -/
theorem witness_params : (0 : Reg) ≠ 15 ∧ paramsWf State.reset.params = true ∧
    paramsWf { Config.Params.default with fontBase := 0x1B0#16 } = true ∧
    paramsWf { Config.Params.default with fontBase := 0x1B1#16 } = false := by decide

/-- LdBStores, LdMemStores, LdVxMemLoads: the last address that fits and the first that does not. -/
theorem witness_ranges : (State.reset.setI 4093#16).i.toNat + 2 ≤ 4095 ∧ (State.reset.setI 4094#16).i.toNat + 2 > 4095 ∧
    (State.reset.setI 4080#16).i.toNat + (15 : Reg).val ≤ 4095 ∧
    (State.reset.setI 4081#16).i.toNat + (15 : Reg).val > 4095 := by decide

/-- StoreThenLoadRegisters after a register write in between. -/
theorem witness_store_load : ∃ t, exec (.ldMemVx 15) (State.reset.setI 0xFF0#16) = .next t ∧
    (t.setReg 3 9#8).i = t.i ∧
    ∀ k : Reg, k ≤ 15 → (t.setReg 3 9#8).mem.read (0xFF0 + k.val) = t.mem.read (0xFF0 + k.val) :=
  ⟨_, rfl, rfl, fun _ _ => rfl⟩

/-- BeepFollowsSoundTimer: an instruction that changes the signal. -/
theorem witness_beep : ∃ t, exec (.ldStVx 0) (regs2 1#8 0#8) = .next t ∧ beep t ≠ beep (regs2 1#8 0#8) :=
  ⟨_, rfl, by decide⟩

/-- LoadProgramCopies: the longest program that fits and one byte more. -/
theorem witness_program : (List.replicate 3584 1#8).length ≤ 3584 ∧ (List.replicate 3585 1#8).length > 3584 := by
  rw [List.length_replicate, List.length_replicate]; decide

/-- FramebufferAfterCls: a timer tick and a load between the two. -/
theorem witness_framebuffer : (∃ t, exec .cls State.reset = .next t) ∧
    ∀ op ∈ [HostOp.timerTick, .loadProgram []], ∀ keys rnd, op ≠ .tick keys rnd := by
  refine ⟨⟨_, rfl⟩, ?_⟩
  intro op h keys rnd
  simp only [List.mem_cons, List.not_mem_nil, or_false] at h
  rcases h with rfl | rfl <;> simp

end Sys2Proof.Tests
end

section
/-! SUPPORT. Inversion: what is known where an instruction completes. Its ending (`next`, `skipIf`, `jump`) fixes the
next state, and an instruction that checks first has passed its check. -/

namespace Sys2Proof.Machine

variable {s t u : State}

theorem eq_of_next (h : next u = .next t) : t = u.setPc (u.pc + 2) := by
  cases h; rfl

theorem eq_of_skipIf {c : Bool} (h : skipIf c u = .next t) : t = u.setPc (u.pc + if c then 4 else 2) := by
  cases h; rfl

theorem eq_of_jump {w : Word} (h : jump w u = .next t) : t = u.setPc w := by
  cases h; rfl

/-- An access in memory that completes has passed the range check of R56 and goes on to its `next`. -/
theorem next_of_guarded {c : Bool} {e : Fault} (h : (if c then next u else raise e) = .next t) :
    c = true ∧ next u = .next t := by
  cases c with
  | true => exact ⟨rfl, h⟩
  | false => cases h

/-- `RET` completes with an entry in the stack: it jumps to entry `sp - 1`, which stays there (R121). -/
theorem exec_ret_cases (h : exec .ret s = .next t) : ∃ k : Fin 16, k.val + 1 = s.sp.val ∧
    t = (s.setStack s.stack k.castSucc).setPc s.stack[k.val] := by
  by_cases hs : s.sp.val = 0
  · rw [exec_ret_empty s hs] at h; cases h
  · rw [exec_ret_next s (by omega)] at h
    cases h
    exact ⟨⟨s.sp.val - 1, by omega⟩, by simp only; omega, rfl⟩

/-- `CALL` completes with an entry free: it stores the address after itself in entry `sp` (R124). -/
theorem exec_call_cases {nnn : Addr} (h : exec (.call nnn) s = .next t) : ∃ k : Fin 16, k.val = s.sp.val ∧
    t = (s.setStack (s.stack.set k.val (s.pc + 2)) k.succ).setPc (zext16 nnn) := by
  by_cases hs : s.sp.val < 16
  · rw [exec_call_next s nnn hs] at h
    cases h
    exact ⟨⟨s.sp.val, hs⟩, rfl, rfl⟩
  · rw [exec_call_full s nnn (by omega)] at h; cases h

end Sys2Proof.Machine
end

section
/-! SUPPORT. The frame of every instruction: an instruction is a chain of the state's updates, each of which keeps what
it does not write, and its ending writes `pc` only. -/

namespace Sys2Proof.Machine

section Endings

variable {rs : List Reg} {ps : List Part} {s t u : State}

theorem Keeps.trans_next (hk : Keeps rs ps s u) (h : next u = .next t) : Keeps rs ps s t :=
  eq_of_next h ▸ hk.trans (keeps_setPc u _)

theorem Keeps.trans_skipIf {c : Bool} (hk : Keeps rs ps s u) (h : skipIf c u = .next t) : Keeps rs ps s t :=
  eq_of_skipIf h ▸ hk.trans (keeps_setPc u _)

theorem Keeps.trans_jump {w : Word} (hk : Keeps rs ps s u) (h : jump w u = .next t) : Keeps rs ps s t :=
  eq_of_jump h ▸ hk.trans (keeps_setPc u _)

theorem Keeps.trans_nextOrWait {c : Bool} {idle : State} (hu : Keeps rs ps s u) (hi : Keeps rs ps s idle)
    (h : nextOrWait c u idle = .next t) : Keeps rs ps s t := by
  cases c with
  | true => exact hu.trans_next h
  | false => cases h; exact hi

end Endings

/-- `LD Vx,[I]` writes no register above `x` (R188). -/
theorem keeps_loadedRegs {ps : List Part} (s : State) (m : Memory) (lo : Nat) (x : Reg) :
    Keeps (regsWritten (.ldVxMem x)) ps s (s.setRegs (loadedRegs s.v m lo x)) := by
  refine keeps_setRegs s _ fun r hr => ?_
  have hx : ¬ r ≤ x := by simpa [regsWritten] using hr
  rw [getElem_loadedRegs, if_neg hx, State.reg_eq]

theorem keeps_exec {i : Instr} {s t : State} (h : exec i s = .next t) :
    Keeps (regsWritten i) (partsWritten i) s t := by
  have one (x : Reg) : x ∈ [x] := List.mem_singleton_self x
  have fst (x : Reg) : x ∈ [x, 15] := List.mem_cons_self
  have vf (x : Reg) : 15 ∈ [x, (15 : Reg)] := List.mem_cons_of_mem x (one 15)
  have part (p : Part) : p ∈ [p] := List.mem_singleton_self p
  cases i with
  | cls => exact (keeps_setDisplay s _ (part _)).trans_next h
  | ret =>
    obtain ⟨k, -, rfl⟩ := exec_ret_cases h
    exact (keeps_setStack s _ _ (part _)).trans (keeps_setPc _ _)
  | call nnn =>
    obtain ⟨k, -, rfl⟩ := exec_call_cases h
    exact (keeps_setStack s _ _ (part _)).trans (keeps_setPc _ _)
  | sys nnn => exact (Keeps.rfl' _ _ s).trans_next h
  | jp nnn | jpV0 nnn => exact (Keeps.rfl' _ _ s).trans_jump h
  | seImm x kk | sneImm x kk | seReg x y | sneReg x y => exact (Keeps.rfl' _ _ s).trans_skipIf h
  | skp x | sknp x => exact (keeps_takeKeys s (part _)).trans_skipIf h
  | ldImm x _ | addImm x _ | ldReg x _ | orReg x _ | andReg x _ | xorReg x _ | ldVxDt x =>
    exact (keeps_setReg s _ (one x)).trans_next h
  | addReg x y | subReg x y | subnReg x y | shr x | shl x => exact (keeps_setResult s _ _ (fst x) (vf x)).trans_next h
  | rnd x kk => exact ((keeps_takeRnd s (part _)).trans (keeps_setReg _ _ (one x))).trans_next h
  | ldVxK x =>
    have hk : Keeps [x] [.keys] s s.takeKeys := keeps_takeKeys s (part _)
    exact Keeps.trans_nextOrWait (hk.trans (keeps_setReg _ _ (one x))) hk h
  | ldI _ | addIVx x | ldFVx x => exact (keeps_setI s _ (part _)).trans_next h
  | ldDtVx x => exact (keeps_setDt s _ (part _)).trans_next h
  | ldStVx x => exact (keeps_setSt s _ (part _)).trans_next h
  | drw x y n =>
    obtain ⟨-, h⟩ := next_of_guarded h
    exact ((keeps_setDisplay s _ (part _)).trans (keeps_setReg _ _ (one 15))).trans_next h
  | ldBVx x | ldMemVx x =>
    obtain ⟨-, h⟩ := next_of_guarded h
    exact (keeps_setMem s _ (part _)).trans_next h
  | ldVxMem x =>
    obtain ⟨-, h⟩ := next_of_guarded h
    exact (keeps_loadedRegs s _ _ x).trans_next h

end Sys2Proof.Machine

/-- Settles O20: the frame of the instruction's updates, by the constructors of `Instr`. -/
theorem frameOfEveryInstruction : Obligations.FrameOfEveryInstruction :=
  fun _ _ _ h => Sys2Proof.Machine.keeps_exec h
end

section
/-! SUPPORT. How an ending changes `pc` where the advance does not wrap (R25), and the targets of the jumps. -/

namespace Sys2Proof.Machine

section Endings

variable {s t u : State}

theorem toNat_pc_of_next (hp : s.pc.toNat ≤ 4094) (h : next u = .next t) (hu : u.pc = s.pc) :
    t.pc.toNat = s.pc.toNat + 2 := by
  rw [eq_of_next h, State.setPc_pc, hu]
  bv_omega

theorem toNat_pc_of_skipIf {c : Bool} (hp : s.pc.toNat ≤ 4094) (h : skipIf c u = .next t) (hu : u.pc = s.pc) :
    t.pc.toNat = s.pc.toNat + if c then 4 else 2 := by
  rw [eq_of_skipIf h, State.setPc_pc, hu]
  cases c
  · simp only [Bool.false_eq_true, if_false]; bv_omega
  · simp only [if_true]; bv_omega

theorem pc_of_jump {w : Word} (h : jump w u = .next t) : t.pc = w := by rw [eq_of_jump h, State.setPc_pc]

end Endings

@[simp] theorem toNat_zext16 (nnn : Addr) : (zext16 nnn).toNat = nnn.toNat :=
  BitVec.toNat_setWidth_of_le (by decide)

/-- The target of `JP V0,nnn` is at most 4095 + 255, so the sum is the mathematical one (R125). -/
@[simp] theorem toNat_sumTarget (nnn : Addr) (b : Byte) : (sumTarget nnn b).toNat = nnn.toNat + b.toNat := by
  have hn := nnn.isLt
  have hb := b.isLt
  rw [sumTarget, BitVec.toNat_ofNat]
  omega

end Sys2Proof.Machine

open Sys2Proof Sys2Proof.Machine

/-- Settles O11: by the ending of each instruction; an access in memory and `RET` first pass their check. -/
theorem pcAfterInstruction : Obligations.PcAfterInstruction := by
  intro s t i hp h
  cases i with
  | jp nnn => exact (congrArg BitVec.toNat (pc_of_jump h)).trans (toNat_zext16 nnn)
  | jpV0 nnn => exact (congrArg BitVec.toNat (pc_of_jump h)).trans (toNat_sumTarget nnn _)
  | call nnn =>
    obtain ⟨k, -, rfl⟩ := exec_call_cases h
    exact toNat_zext16 nnn
  | ret =>
    obtain ⟨k, hk, rfl⟩ := exec_ret_cases h
    exact ⟨k, hk, rfl⟩
  | seImm x _ | sneImm x _ | seReg x _ | sneReg x _ | skp x =>
    simpa using toNat_pc_of_skipIf hp h rfl
  | sknp x =>
    refine (toNat_pc_of_skipIf hp h rfl).trans ?_
    cases pressed s.keys (lowNibble (s.reg x)) <;> rfl
  | ldVxK x =>
    cases hk : anyPressed s.keys with
    | true => exact toNat_pc_of_next hp ((exec_ldVxK_next s x hk).symm.trans h) rfl
    | false => cases (exec_ldVxK_wait s x hk).symm.trans h; rfl
  | drw | ldBVx | ldMemVx | ldVxMem =>
    obtain ⟨-, h⟩ := next_of_guarded h
    exact toNat_pc_of_next hp h rfl
  | _ => exact toNat_pc_of_next hp h rfl
end

section
/-! SUPPORT. The invariant along a step, part by part: memory is as it was or was written inside the address space,
the stack holds what it held or what `CALL` pushed, and `pc` went where `pcAfterInstruction` says. -/

namespace Sys2Proof.Machine

variable {i : Instr} {s t : State}

/-- What an instruction does to memory as a list, of which the frame says only what it reads as: bytes from `I` on are
stored inside the address space, or nothing is (R50, R56). -/
theorem exec_mem_cases (h : exec i s = .next t) : t.mem = s.mem ∨
    ∃ bs, s.i.toNat + bs.length ≤ 4096 ∧ t.mem = s.mem.writeBytes s.i.toNat bs := by
  cases i with
  | ldBVx x =>
    obtain ⟨hr, h⟩ := next_of_guarded h
    refine .inr ⟨bcdDigits (s.reg x), ?_, congrArg State.mem (eq_of_next h)⟩
    rw [rangeOk_iff] at hr
    rw [length_bcdDigits]
    omega
  | ldMemVx x =>
    obtain ⟨hr, h⟩ := next_of_guarded h
    refine .inr ⟨regsUpTo s.v x, ?_, congrArg State.mem (eq_of_next h)⟩
    rw [rangeOk_iff] at hr
    rw [length_regsUpTo]
    omega
  | ret => obtain ⟨k, -, rfl⟩ := exec_ret_cases h; exact .inl rfl
  | call => obtain ⟨k, -, rfl⟩ := exec_call_cases h; exact .inl rfl
  | drw | ldVxMem =>
    obtain ⟨-, h⟩ := next_of_guarded h
    cases h; exact .inl rfl
  | ldVxK x =>
    cases hk : anyPressed s.keys with
    | true => cases (exec_ldVxK_next s x hk).symm.trans h; exact .inl rfl
    | false => cases (exec_ldVxK_wait s x hk).symm.trans h; exact .inl rfl
  | _ => cases h; exact .inl rfl

theorem exec_keeps_mem_wf (h : exec i s = .next t) (hm : s.mem.wf = true) : t.mem.wf = true := by
  obtain he | ⟨bs, hb, he⟩ := exec_mem_cases h
  · rwa [he]
  · rw [he]; exact Memory.wf_writeBytes hb hm

/-- What `CALL` pushes is at most 4096, since its own address is at most 4094 (R124). -/
theorem exec_keeps_stack_le (h : exec i s = .next t) (hp : s.pc.toNat ≤ 4094)
    (hs : ∀ k : Fin 16, s.stack[k.val].toNat ≤ 0x1000) (k : Fin 16) : t.stack[k.val].toNat ≤ 0x1000 := by
  by_cases hst : .stack ∈ partsWritten i
  · cases i with
    | ret => obtain ⟨j, -, rfl⟩ := exec_ret_cases h; exact hs k
    | call nnn =>
      obtain ⟨j, -, rfl⟩ := exec_call_cases h
      simp only [State.setPc_stack, State.setStack_stack, Vector.getElem_set]
      split
      · bv_omega
      · exact hs k
    | _ => simp [partsWritten] at hst
  · rw [((keeps_exec h).stack hst).2 k]
    exact hs k

/-- The largest value any rule can put into `pc` is the target of `JP V0,0xFFF` with V0 = 0xFF (R26). -/
theorem exec_pc_le (h : exec i s = .next t) (hp : s.pc.toNat ≤ 4094)
    (hs : ∀ k : Fin 16, s.stack[k.val].toNat ≤ 0x1000) : t.pc.toNat ≤ 0x10FE := by
  have hpc := pcAfterInstruction s t i hp h
  cases i with
  | jp nnn | call nnn => simp only at hpc; have := nnn.isLt; omega
  | jpV0 nnn => simp only at hpc; have := nnn.isLt; have := (s.reg 0).isLt; omega
  | ret =>
    obtain ⟨k, -, hk⟩ := hpc
    have := hs k
    rw [hk]; omega
  | seImm | sneImm | seReg | sneReg | skp | sknp | ldVxK => simp only at hpc; split at hpc <;> omega
  | _ => simp only at hpc; omega

theorem Inv.of_exec (hi : Inv s) (hp : s.pc.toNat ≤ 4094) (h : exec i s = .next t) : Inv t where
  mem_wf := exec_keeps_mem_wf h hi.mem_wf
  pc_le := exec_pc_le h hp hi.stack_le
  stack_le := exec_keeps_stack_le h hp hi.stack_le
  params_wf := (keeps_exec h).params ▸ hi.params_wf

end Sys2Proof.Machine

open Sys2Proof.Machine

/-- Settles O17: a step that completes executed an instruction fetched at a `pc` of at most 4094. -/
theorem stepKeepsInvariant : Obligations.StepKeepsInvariant := by
  intro s t hi h
  obtain ⟨hp, i, -, he⟩ := step_next_cases h
  exact hi.of_exec hp he
end

section
/-! SUPPORT. The flag of the six flag-writing instructions, the timers and the state after reset. -/

namespace Sys2Proof.Machine

theorem flagByte_zero_or_one (f : Bool) : flagByte f = 0#8 ∨ flagByte f = 1#8 := by
  cases f
  · exact .inl flagByte_false
  · exact .inr flagByte_true

/-- Where the flag is the last write of an instruction, VF holds a flag result after it (R23, R159). -/
theorem reg_VF_of_next_setFlag {u t : State} {f : Bool} (h : next (u.setFlag f) = .next t) :
    t.reg 15 = 0#8 ∨ t.reg 15 = 1#8 := by
  rw [eq_of_next h, State.reg_setPc, State.reg_setFlag, if_pos rfl]
  exact flagByte_zero_or_one f

/-- An access in memory does the same after a change of the state that neither its check nor its writes see. -/
theorem guarded_eq_mapNext {f : State → State} {c : Bool} {e : Fault} {u v : State}
    (h : next v = mapNext f (next u)) :
    (if c then next v else raise e) = mapNext f (if c then next u else raise e) := by
  cases c with
  | true => exact h
  | false => rfl

/-- No instruction but `LD ST,Vx` sees or changes `ST`: its outcome is the one with any other `ST`, `ST` as it was put
(R32). -/
theorem exec_setSt {i : Instr} (s : State) (b : Byte) (hi : ∀ x, i ≠ .ldStVx x) :
    exec i (s.setSt b) = mapNext (fun t => t.setSt b) (exec i s) := by
  cases i with
  | ldStVx x => exact absurd rfl (hi x)
  | ret =>
    by_cases hs : s.sp.val = 0
    · rw [exec_ret_empty s hs, exec_ret_empty (s.setSt b) hs]; rfl
    · rw [exec_ret_next s (by omega), exec_ret_next (s.setSt b) (Nat.pos_of_ne_zero hs)]; rfl
  | call nnn =>
    by_cases hs : s.sp.val < 16
    · rw [exec_call_next s nnn hs, exec_call_next (s.setSt b) nnn hs]; rfl
    · have hf : s.sp.val = 16 := by omega
      rw [exec_call_full s nnn hf, exec_call_full (s.setSt b) nnn hf]; rfl
  | ldVxK x =>
    cases hk : anyPressed s.keys with
    | true => rw [exec_ldVxK_next s x hk, exec_ldVxK_next (s.setSt b) x hk]; rfl
    | false => rw [exec_ldVxK_wait s x hk, exec_ldVxK_wait (s.setSt b) x hk]; rfl
  | drw | ldBVx | ldMemVx | ldVxMem => exact guarded_eq_mapNext rfl
  | _ => rfl

theorem toNat_countDown (b : Byte) : (countDown b).toNat = b.toNat - 1 := by
  unfold countDown
  split <;> bv_omega

/-- Above the 80 bytes of the font an unlisted address reads 0 (R190, R42). -/
theorem Memory.unlisted_of_ge {a : Nat} (h : 80 ≤ a) : Memory.unlisted a = 0#8 :=
  List.getD_eq_default _ _ h

/-- A lawful `LOW_MEM_IMAGE` lists no cell from 0x200 on, so memory is 0 there (D3, R42). -/
theorem read_lowMem_of_ge {p : Config.Params} (hp : paramsWf p = true) {a : Nat} (ha : 0x200 ≤ a) :
    Memory.read p.lowMem a = 0#8 := by
  simp only [paramsWf, Bool.and_eq_true, List.all_eq_true, decide_eq_true_eq] at hp
  obtain ⟨-, hlow⟩ := hp
  rw [Memory.read_above_all fun c hc => (hlow c hc).trans_le ha]
  exact Memory.unlisted_of_ge (by omega)

/-- What the operation `Reset` and `State.reset` have in common: the store of `resetStore`, with some inputs. -/
theorem resetStore_of_reset {s t : State}
    (h : perform .reset s = (t, .ok) ∨ s.params = Config.Params.default ∧ t = State.reset) :
    t = { resetStore s with
      keyInputs := t.keyInputs, keySamples := t.keySamples, rndInputs := t.rndInputs, rndSamples := t.rndSamples } := by
  obtain h | ⟨hp, rfl⟩ := h
  · cases h; rfl
  · simp only [resetStore, hp]; rfl

end Sys2Proof.Machine

open Sys2Proof Sys2Proof.Machine

/-- Settles O21: each of the six writes the flag last; `DRW` first passes its check. -/
theorem flagIsZeroOrOne : Obligations.FlagIsZeroOrOne := by
  rintro x y n s t (h | h | h | h | h | h)
  · exact reg_VF_of_next_setFlag h
  · exact reg_VF_of_next_setFlag h
  · exact reg_VF_of_next_setFlag h
  · exact reg_VF_of_next_setFlag h
  · exact reg_VF_of_next_setFlag h
  · obtain ⟨-, h⟩ := next_of_guarded h
    exact reg_VF_of_next_setFlag h

/-- Settles O23: who writes a timer is the frame of every instruction, and none reads `ST` by `exec_setSt`. -/
theorem timerRegisterRules : Obligations.TimerRegisterRules := by
  have hread (x : Reg) (s : State) : ((s.setReg x s.dt).setPc (s.pc + 2)).reg x = s.dt := by
    rw [State.reg_setPc, State.reg_setReg, if_pos rfl]
  have hdt (i : Instr) (hi : ∀ x, i ≠ .ldDtVx x) : .dt ∉ partsWritten i := by
    cases i with
    | ldDtVx x => exact absurd rfl (hi x)
    | _ => simp [partsWritten]
  have hst (i : Instr) (hi : ∀ x, i ≠ .ldStVx x) : .st ∉ partsWritten i := by
    cases i with
    | ldStVx x => exact absurd rfl (hi x)
    | _ => simp [partsWritten]
  exact ⟨fun x s => ⟨⟨_, rfl, rfl⟩, ⟨_, rfl, rfl⟩, _, rfl, hread x s⟩,
    fun i s t h => ⟨fun hi => (keeps_exec h).dt (hdt i hi), fun hi => (keeps_exec h).st (hst i hi)⟩,
    fun i s b hi => exec_setSt s b hi, fun _ _ _ => rfl, fun s => ⟨toNat_countDown _, toNat_countDown _⟩,
    fun s => decide_eq_true_iff⟩

/-- Settles O15: the fields are those of `resetStore`, and memory is the parameter `LOW_MEM_IMAGE`. -/
theorem resetValues : Obligations.ResetValues := by
  refine ⟨fun s => ⟨resetStore s, rfl, rfl, rfl⟩, fun s t h => ?_⟩
  rw [resetStore_of_reset h]
  have hreg (r : Reg) : (Vector.replicate 16 0#8)[r.val] = 0#8 := Vector.getElem_replicate _
  have hstack (k : Fin 16) : (Vector.replicate 16 0#16)[k.val] = 0#16 := Vector.getElem_replicate _
  refine ⟨hreg, rfl, rfl, rfl, hstack, Display.get_clear, rfl, rfl, rfl, rfl, fun _ _ => rfl,
    fun hp a ha => read_lowMem_of_ge hp ha, fun hd => ?_⟩
  have hmem (a : Nat) : Memory.read s.params.lowMem a = Memory.unlisted a := by rw [hd]; rfl
  exact ⟨fun a _ => hmem a, fun a ha => (hmem a).trans (Memory.unlisted_of_ge ha)⟩

/-- Settles O16: memory lists no cell, `pc` is 0x200, the stack is all zero and the parameters are the defaults. -/
theorem resetMeetsInvariant : Obligations.ResetMeetsInvariant where
  mem_wf := rfl
  pc_le := by decide
  stack_le k := by simp [State.reset]
  params_wf := by decide
end

section
/-! SUPPORT. Memory as the instructions use it: two runs that differ in memory, and what `LD [I],Vx` stores. The
comparisons are stated for any change `f` of the state that the instruction's tests do not see. -/

namespace Sys2Proof.Machine

section Comparison

variable {f : State → State} {s : State}

/-- `RET` sees the stack and writes the stack and `pc` (R121). -/
theorem exec_ret_eq_mapNext (hst : (f s).stack = s.stack) (hsp : (f s).sp = s.sp)
    (hf : ∀ k n w, ((f s).setStack k n).setPc w = f ((s.setStack k n).setPc w)) :
    exec .ret (f s) = mapNext f (exec .ret s) := by
  by_cases h : s.sp.val = 0
  · rw [exec_ret_empty s h, exec_ret_empty (f s) (hsp ▸ h), mapNext]
  · have hpos : 0 < s.sp.val := Nat.pos_of_ne_zero h
    rw [exec_ret_next s hpos, exec_ret_next (f s) (hsp.symm ▸ hpos), mapNext]
    simp only [hf, hst, hsp]

/-- `CALL` sees the stack and `pc` and writes them (R124). -/
theorem exec_call_eq_mapNext (nnn : Addr) (hst : (f s).stack = s.stack) (hsp : (f s).sp = s.sp) (hpc : (f s).pc = s.pc)
    (hf : ∀ k n w, ((f s).setStack k n).setPc w = f ((s.setStack k n).setPc w)) :
    exec (.call nnn) (f s) = mapNext f (exec (.call nnn) s) := by
  by_cases h : s.sp.val < 16
  · rw [exec_call_next s nnn h, exec_call_next (f s) nnn (hsp.symm ▸ h), mapNext]
    simp only [hf, hst, hsp, hpc]
  · have hfull : s.sp.val = 16 := by omega
    rw [exec_call_full s nnn hfull, exec_call_full (f s) nnn (hsp.symm ▸ hfull), mapNext]

theorem nextOrWait_eq_mapNext {c : Bool} {u v idle idle' : State} (hn : next v = mapNext f (next u))
    (hi : idle' = f idle) : nextOrWait c v idle' = mapNext f (nextOrWait c u idle) := by
  cases c with
  | true => exact hn
  | false => exact congrArg _ hi

end Comparison

/-- Besides `DRW`, `LD Vx,[I]`, `LD B,Vx` and `LD [I],Vx` no instruction sees or changes memory (R50). -/
theorem exec_setMem {i : Instr} (s : State) (m : Memory)
    (hi : ∀ x y n, i ≠ .drw x y n ∧ i ≠ .ldVxMem x ∧ i ≠ .ldBVx x ∧ i ≠ .ldMemVx x) :
    exec i (s.setMem m) = mapNext (fun t => t.setMem m) (exec i s) := by
  cases i with
  | drw x y n => simpa using hi x y n
  | ldVxMem x | ldBVx x | ldMemVx x => simpa using hi x 0 0
  | ret => exact exec_ret_eq_mapNext (f := fun t => t.setMem m) rfl rfl fun _ _ _ => rfl
  | call nnn => exact exec_call_eq_mapNext (f := fun t => t.setMem m) nnn rfl rfl rfl fun _ _ _ => rfl
  | ldVxK x => exact nextOrWait_eq_mapNext rfl rfl
  | _ => rfl

/-- `LD [I],Vx` completes with V0 to Vx stored from `I` on (R187). -/
theorem eq_of_exec_ldMemVx {x : Reg} {s t : State} (h : exec (.ldMemVx x) s = .next t) :
    t = (s.setMem (s.mem.writeBytes s.i.toNat (regsUpTo s.v x))).setPc (s.pc + 2) := by
  obtain ⟨-, h⟩ := next_of_guarded h
  exact eq_of_next h

/-- Each V[k] up to Vx then stands at `I + k` (R187). -/
theorem read_of_exec_ldMemVx {x k : Reg} {s t : State} (h : exec (.ldMemVx x) s = .next t) (hk : k ≤ x) :
    t.mem.read (s.i.toNat + k.val) = s.reg k := by
  have hle : k.val ≤ x.val := hk
  have hin : s.i.toNat ≤ s.i.toNat + k.val ∧ s.i.toNat + k.val < s.i.toNat + (regsUpTo s.v x).length := by
    rw [length_regsUpTo]; omega
  rw [eq_of_exec_ldMemVx h, State.setPc_mem, State.setMem_mem, Memory.read_writeBytes, if_pos hin,
    Nat.add_sub_cancel_left, getD_regsUpTo s.v x k hk, State.reg_eq]

end Sys2Proof.Machine

open Sys2Proof.Machine

/-- Settles O24: the executor commutes with a change of memory, by the constructors of `Instr`. -/
theorem memoryUsedOnlyBy : Obligations.MemoryUsedOnlyBy :=
  fun _ s m hi => exec_setMem s m hi

/-- Settles O25: the new `pc` is `I`, where V0 and V1 were stored. -/
theorem storeSeenByNextFetch : Obligations.StoreSeenByNextFetch := by
  intro x s t hx hi h
  have hpc : t.pc = s.i := by rw [eq_of_exec_ldMemVx h, State.setPc_pc, hi]
  have h0 : t.mem.read s.i.toNat = s.reg 0 := read_of_exec_ldMemVx h (Fin.zero_le x)
  have h1 : t.mem.read (s.i.toNat + 1) = s.reg 1 := read_of_exec_ldMemVx (k := 1) h hx
  rw [hpc, h0, h1]
end

section
/-! SUPPORT. The opcode map in both directions: an opcode is put together from its fields, the decoder's answer encodes
to the canonical opcode, and each family of the table says which of its opcodes are `Unknown`. -/

namespace Sys2Proof

theorem decode_encode (strict : Bool) (i : Instr) (h : i.wf = true) : decode strict (encode i) = .instr i :=
  match i with
  | .cls => Laws.RoundTrip.cls h strict
  | .ret => Laws.RoundTrip.ret h strict
  | .sys nnn => Laws.RoundTrip.sys nnn h strict
  | .jp nnn => Laws.RoundTrip.jp nnn h strict
  | .call nnn => Laws.RoundTrip.call nnn h strict
  | .seImm x kk => Laws.RoundTrip.seImm x kk h strict
  | .sneImm x kk => Laws.RoundTrip.sneImm x kk h strict
  | .seReg x y => Laws.RoundTrip.seReg x y h strict
  | .ldImm x kk => Laws.RoundTrip.ldImm x kk h strict
  | .addImm x kk => Laws.RoundTrip.addImm x kk h strict
  | .ldReg x y => Laws.RoundTrip.ldReg x y h strict
  | .orReg x y => Laws.RoundTrip.orReg x y h strict
  | .andReg x y => Laws.RoundTrip.andReg x y h strict
  | .xorReg x y => Laws.RoundTrip.xorReg x y h strict
  | .addReg x y => Laws.RoundTrip.addReg x y h strict
  | .subReg x y => Laws.RoundTrip.subReg x y h strict
  | .shr x => Laws.RoundTrip.shr x h strict
  | .subnReg x y => Laws.RoundTrip.subnReg x y h strict
  | .shl x => Laws.RoundTrip.shl x h strict
  | .sneReg x y => Laws.RoundTrip.sneReg x y h strict
  | .ldI nnn => Laws.RoundTrip.ldI nnn h strict
  | .jpV0 nnn => Laws.RoundTrip.jpV0 nnn h strict
  | .rnd x kk => Laws.RoundTrip.rnd x kk h strict
  | .drw x y n => Laws.RoundTrip.drw x y n h strict
  | .skp x => Laws.RoundTrip.skp x h strict
  | .sknp x => Laws.RoundTrip.sknp x h strict
  | .ldVxDt x => Laws.RoundTrip.ldVxDt x h strict
  | .ldVxK x => Laws.RoundTrip.ldVxK x h strict
  | .ldDtVx x => Laws.RoundTrip.ldDtVx x h strict
  | .ldStVx x => Laws.RoundTrip.ldStVx x h strict
  | .addIVx x => Laws.RoundTrip.addIVx x h strict
  | .ldFVx x => Laws.RoundTrip.ldFVx x h strict
  | .ldBVx x => Laws.RoundTrip.ldBVx x h strict
  | .ldMemVx x => Laws.RoundTrip.ldMemVx x h strict
  | .ldVxMem x => Laws.RoundTrip.ldVxMem x h strict

/-! ### The opcodes with an ignored field (R82) -/

theorem decode_seReg_ignored (x y n : Fin 16) : decode false (encXYN 0x5#4 x y n) = .instr (.seReg x y) := by
  simp [decode, decodeXY0]

theorem decode_sneReg_ignored (x y n : Fin 16) : decode false (encXYN 0x9#4 x y n) = .instr (.sneReg x y) := by
  simp [decode, decodeXY0]

theorem decode_shr_ignored (x y : Fin 16) : decode false (encXYN 0x8#4 x y 0x6) = .instr (.shr x) := by
  simp [decode, decode8]

theorem decode_shl_ignored (x y : Fin 16) : decode false (encXYN 0x8#4 x y 0xE) = .instr (.shl x) := by
  simp [decode, decode8]

theorem ofNat_val_eq_regBits (r : Fin 16) : BitVec.ofNat 4 r.val = regBits r := by
  apply BitVec.eq_of_toNat_eq
  rw [BitVec.toNat_ofNat, toNat_regBits]
  omega

/-! ### An opcode is put together from its fields (R77) -/

section Fields

variable {op : Word} {n1 : BitVec 4}

theorem encNNN_fields (h : nib1 op = n1.toNat) : encNNN n1 (fieldNNN op) = op := by
  apply BitVec.eq_of_toNat_eq
  rw [toNat_encNNN, fieldNNN_toNat, ← h, nib1_eq]
  omega

theorem encXKK_fields {kk : Byte} (h : nib1 op = n1.toNat) (hk : (fieldKK op).toNat = kk.toNat) :
    encXKK n1 (fieldX op) kk = op := by
  apply BitVec.eq_of_toNat_eq
  rw [toNat_encXKK, fieldX_val, ← hk, fieldKK_toNat, ← h, nib1_eq]
  omega

theorem encXYN_fields {n : Fin 16} (h : nib1 op = n1.toNat) (hn : (fieldN op).val = n.val) :
    encXYN n1 (fieldX op) (fieldY op) n = op := by
  apply BitVec.eq_of_toNat_eq
  rw [toNat_encXYN, fieldX_val, fieldY_val, ← hn, fieldN_val, ← h, nib1_eq]
  omega

end Fields

/-! ### The canonical opcode (R82) -/

theorem encXYN_and_FFF0 (n1 : BitVec 4) (x y n : Fin 16) : encXYN n1 x y n &&& 0xFFF0#16 = encXYN n1 x y 0 := by
  have h : (n1 ++ regBits x ++ regBits y ++ regBits n) &&&
      (BitVec.allOnes 4 ++ BitVec.allOnes 4 ++ BitVec.allOnes 4 ++ 0#4) = n1 ++ regBits x ++ regBits y ++ 0#4 := by
    simp only [BitVec.and_append, BitVec.and_allOnes, BitVec.and_zero]
  exact h

theorem encXYN_and_FF0F (n1 : BitVec 4) (x y n : Fin 16) : encXYN n1 x y n &&& 0xFF0F#16 = encXYN n1 x 0 n := by
  have h : (n1 ++ regBits x ++ regBits y ++ regBits n) &&&
      (BitVec.allOnes 4 ++ BitVec.allOnes 4 ++ 0#4 ++ BitVec.allOnes 4) = n1 ++ regBits x ++ 0#4 ++ regBits n := by
    simp only [BitVec.and_append, BitVec.and_allOnes, BitVec.and_zero]
  exact h

section Canonical

variable {op : Word}

theorem canonical_of_nib1_ne (h5 : nib1 op ≠ 0x5) (h8 : nib1 op ≠ 0x8) (h9 : nib1 op ≠ 0x9) :
    canonical op = op := by
  rw [canonical, if_neg (by omega), if_neg (by omega)]

theorem canonical_of_nib1_8 (h : nib1 op = 0x8) (h6 : (fieldN op).val ≠ 0x6) (hE : (fieldN op).val ≠ 0xE) :
    canonical op = op := by
  rw [canonical, if_neg (by omega), if_neg (by omega)]

/-- Families 5 and 9 ignore n4. -/
theorem canonical_xy0 {n1 : BitVec 4} (h : nib1 op = n1.toNat) (h59 : n1 = 0x5#4 ∨ n1 = 0x9#4) :
    canonical op = encXYN n1 (fieldX op) (fieldY op) 0 := by
  have hn : nib1 op = 0x5 ∨ nib1 op = 0x9 := by obtain rfl | rfl := h59 <;> simp [h]
  rw [canonical, if_pos hn]
  conv_lhs => rw [← encXYN_fields h rfl, encXYN_and_FFF0]

/-- `SHR` and `SHL` ignore y. -/
theorem canonical_shift {n : Fin 16} (h : nib1 op = 0x8) (hn : (fieldN op).val = n.val) (h6E : n = 0x6 ∨ n = 0xE) :
    canonical op = encXYN 0x8#4 (fieldX op) 0 n := by
  have hv : (fieldN op).val = 0x6 ∨ (fieldN op).val = 0xE := by obtain rfl | rfl := h6E <;> simp [hn]
  rw [canonical, if_neg (by omega), if_pos ⟨h, hv⟩]
  conv_lhs => rw [← encXYN_fields (n1 := 0x8#4) h hn, encXYN_and_FF0F]

end Canonical

/-! ### What the decoder answers encodes to the canonical opcode (R89) -/

/-- What R89 asks of the decoder's answer to `op`. -/
def Faithful (op : Word) : Decoded → Prop
  | .instr i => i.wf = true ∧ encode i = canonical op
  | .unknown raw => raw = op

section Faithful

variable {op : Word}

/-- An instruction without ignored fields encodes to the opcode itself. -/
theorem Faithful.of_encode {i : Instr} (hw : i.wf = true) (he : encode i = op) (hc : canonical op = op) :
    Faithful op (.instr i) := ⟨hw, he.trans hc.symm⟩

theorem faithful_decode0 (h : nib1 op = 0x0) : Faithful op (decode0 op) := by
  have hc : canonical op = op := canonical_of_nib1_ne (by omega) (by omega) (by omega)
  unfold decode0
  split
  case isTrue he => exact .of_encode rfl he.symm hc
  case isFalse hCls =>
    split
    case isTrue he => exact .of_encode rfl he.symm hc
    case isFalse hRet =>
      have he : encode (.sys (fieldNNN op)) = op := encNNN_fields h
      refine .of_encode ?_ he hc
      simp only [Instr.wf, Bool.and_eq_true, bne_iff_ne]
      exact ⟨fun hz => hCls (by rw [← he, hz]; rfl), fun hz => hRet (by rw [← he, hz]; rfl)⟩

theorem faithful_decodeXY0 (strict : Bool) {f : Reg → Reg → Instr} {n1 : BitVec 4} (h : nib1 op = n1.toNat)
    (h59 : n1 = 0x5#4 ∨ n1 = 0x9#4) (hf : ∀ x y, (f x y).wf = true ∧ encode (f x y) = encXYN n1 x y 0) :
    Faithful op (decodeXY0 strict f op) := by
  unfold decodeXY0
  split
  · rfl
  · obtain ⟨hw, he⟩ := hf (fieldX op) (fieldY op)
    exact ⟨hw, he.trans (canonical_xy0 h h59).symm⟩

theorem faithful_decode8 (h : nib1 op = 0x8) : Faithful op (decode8 op) := by
  unfold decode8
  split
  case h_7 hn => exact ⟨rfl, (canonical_shift h hn (.inl rfl)).symm⟩
  case h_9 hn => exact ⟨rfl, (canonical_shift h hn (.inr rfl)).symm⟩
  case h_10 => rfl
  case h_1 hn | h_2 hn | h_3 hn | h_4 hn | h_5 hn | h_6 hn | h_8 hn =>
    exact .of_encode rfl (encXYN_fields h hn) (canonical_of_nib1_8 h (by omega) (by omega))

theorem faithful_decodeE (h : nib1 op = 0xE) : Faithful op (decodeE op) := by
  have hc : canonical op = op := canonical_of_nib1_ne (by omega) (by omega) (by omega)
  unfold decodeE
  split
  case h_3 => rfl
  case h_1 hk | h_2 hk => exact .of_encode rfl (encXKK_fields h hk) hc

theorem faithful_decodeF (h : nib1 op = 0xF) : Faithful op (decodeF op) := by
  have hc : canonical op = op := canonical_of_nib1_ne (by omega) (by omega) (by omega)
  unfold decodeF
  split
  case h_10 => rfl
  case h_1 hk | h_2 hk | h_3 hk | h_4 hk | h_5 hk | h_6 hk | h_7 hk | h_8 hk | h_9 hk =>
    exact .of_encode rfl (encXKK_fields h hk) hc

/-- By the leading nibble: arm `h_k` of the table is n1 = k - 1. -/
theorem faithful_decode (strict : Bool) (op : Word) : Faithful op (decode strict op) := by
  unfold decode
  split
  case h_1 h => exact faithful_decode0 h
  case h_6 h => exact faithful_decodeXY0 (n1 := 0x5#4) strict h (.inl rfl) fun _ _ => ⟨rfl, rfl⟩
  case h_9 h => exact faithful_decode8 h
  case h_10 h => exact faithful_decodeXY0 (n1 := 0x9#4) strict h (.inr rfl) fun _ _ => ⟨rfl, rfl⟩
  case h_15 h => exact faithful_decodeE h
  case h_16 h => exact faithful_decodeF h
  case h_17 => rfl
  case h_2 h | h_3 h | h_11 h | h_12 h =>
    exact .of_encode rfl (encNNN_fields h) (canonical_of_nib1_ne (by omega) (by omega) (by omega))
  case h_4 h | h_5 h | h_7 h | h_8 h | h_13 h =>
    exact .of_encode rfl (encXKK_fields h rfl) (canonical_of_nib1_ne (by omega) (by omega) (by omega))
  case h_14 h =>
    exact .of_encode rfl (encXYN_fields h rfl) (canonical_of_nib1_ne (by omega) (by omega) (by omega))

end Faithful

/-! ### Which opcodes are `Unknown`, family by family (R83) -/

section Unknown

variable {op raw : Word}

/-- A row of the map: an instruction is not `Unknown`. -/
theorem instr_eq_unknown_iff {i : Instr} {p : Prop} (hp : ¬p) : .instr i = Decoded.unknown raw ↔ raw = op ∧ p :=
  iff_of_false Decoded.noConfusion fun h => hp h.2

theorem unknown_eq_unknown_iff {p : Prop} (hp : p) : .unknown op = Decoded.unknown raw ↔ raw = op ∧ p := by
  simp [hp, eq_comm]

theorem decode0_ne_unknown : decode0 op ≠ .unknown raw := by
  unfold decode0
  split
  · exact Decoded.noConfusion
  · split <;> exact Decoded.noConfusion

theorem decodeXY0_eq_unknown_iff {strict : Bool} {f : Reg → Reg → Instr} :
    decodeXY0 strict f op = .unknown raw ↔ raw = op ∧ strict = true ∧ op.toNat % 16 ≠ 0 := by
  have hN : fieldN op ≠ 0 ↔ op.toNat % 16 ≠ 0 := by rw [← fieldN_val, ne_eq, Fin.ext_iff]; rfl
  unfold decodeXY0
  split
  case isTrue h => exact unknown_eq_unknown_iff (by simpa [hN] using h)
  case isFalse h => exact instr_eq_unknown_iff (by simpa [hN] using h)

theorem decode8_eq_unknown_iff :
    decode8 op = .unknown raw ↔ raw = op ∧ 8 ≤ op.toNat % 16 ∧ op.toNat % 16 ≠ 0xE := by
  rw [← fieldN_val]
  unfold decode8
  split
  case h_10 =>
    simp only [imp_false] at *
    exact unknown_eq_unknown_iff (by omega)
  all_goals exact instr_eq_unknown_iff (by omega)

theorem decodeE_eq_unknown_iff :
    decodeE op = .unknown raw ↔ raw = op ∧ op.toNat % 256 ≠ 0x9E ∧ op.toNat % 256 ≠ 0xA1 := by
  rw [← fieldKK_toNat]
  unfold decodeE
  split
  case h_3 h9E hA1 => exact unknown_eq_unknown_iff ⟨h9E, hA1⟩
  all_goals exact instr_eq_unknown_iff (by omega)

theorem decodeF_eq_unknown_iff : decodeF op = .unknown raw ↔
    raw = op ∧ op.toNat % 256 ∉ [0x07, 0x0A, 0x15, 0x18, 0x1E, 0x29, 0x33, 0x55, 0x65] := by
  rw [← fieldKK_toNat]
  simp only [List.mem_cons, List.not_mem_nil, or_false]
  unfold decodeF
  split
  case h_10 =>
    simp only [imp_false] at *
    exact unknown_eq_unknown_iff (by omega)
  all_goals exact instr_eq_unknown_iff (by omega)

end Unknown

end Sys2Proof

open Sys2Proof

/-- Settles O3: the round trip of each constructor. -/
theorem decodeEncodeRoundTrip : Obligations.DecodeEncodeRoundTrip := decode_encode

/-- Settles O4: by the family of the opcode; in each the opcode is put together again from its fields. -/
theorem encodeDecodeCanonical : Obligations.EncodeDecodeCanonical := by
  intro strict op
  have h := faithful_decode strict op
  generalize decode strict op = d at h ⊢
  cases d with
  | instr i => exact h
  | unknown raw => exact h

/-- Settles O2: a row is the encoding of its instruction, or has an ignored field. -/
theorem opcodeMapRows : Obligations.OpcodeMapRows := by
  unfold Obligations.OpcodeMapRows
  simp only [ofNat_val_eq_regBits]
  have row (i : Instr) (h : i.wf = true) : decode false (encode i) = .instr i := decode_encode false i h
  refine ⟨⟨row .cls rfl, row .ret rfl⟩, fun nnn h0 hE => row (.sys nnn) (by simp [Instr.wf, h0, hE]),
    fun nnn => ⟨row (.jp nnn) rfl, row (.call nnn) rfl, row (.ldI nnn) rfl, row (.jpV0 nnn) rfl⟩,
    fun x kk => ⟨row (.seImm x kk) rfl, row (.sneImm x kk) rfl, row (.ldImm x kk) rfl, row (.addImm x kk) rfl,
      row (.rnd x kk) rfl⟩,
    fun x y n => ⟨decode_seReg_ignored x y n, decode_sneReg_ignored x y n, row (.drw x y n) rfl⟩,
    fun x y => ⟨row (.ldReg x y) rfl, row (.orReg x y) rfl, row (.andReg x y) rfl, row (.xorReg x y) rfl,
      row (.addReg x y) rfl, row (.subReg x y) rfl, decode_shr_ignored x y, row (.subnReg x y) rfl,
      decode_shl_ignored x y⟩,
    fun x => ⟨row (.skp x) rfl, row (.sknp x) rfl, row (.ldVxDt x) rfl, row (.ldVxK x) rfl, row (.ldDtVx x) rfl,
      row (.ldStVx x) rfl, row (.addIVx x) rfl, row (.ldFVx x) rfl, row (.ldBVx x) rfl, row (.ldMemVx x) rfl,
      row (.ldVxMem x) rfl⟩⟩

/-- Settles O5: by the family of the opcode (arm `h_k` is n1 = k - 1); only 5, 8, 9, E and F have unknown opcodes. -/
theorem unknownOpcodesExactly : Obligations.UnknownOpcodesExactly := by
  intro strict op raw
  rw [← nib1_eq]
  have hlt : nib1 op < 16 := BitVec.isLt (op.extractLsb' 12 4)
  unfold decode
  split
  case h_1 h => simp [h, decode0_ne_unknown]
  case h_6 h | h_10 h => simp [h, decodeXY0_eq_unknown_iff]
  case h_9 h => simp [h, decode8_eq_unknown_iff]
  case h_15 h => simp [h, decodeE_eq_unknown_iff]
  case h_16 h => simp [h, decodeF_eq_unknown_iff]
  case h_17 =>
    simp only [imp_false] at *
    omega
  all_goals exact instr_eq_unknown_iff (by omega)

/-- Settles O1: eleven fixed opcodes, each evaluated. -/
theorem decodesSampleWords : Obligations.DecodesSampleWords := by
  unfold Obligations.DecodesSampleWords
  decide
end

section
/-! SUPPORT. No refusal: each meaning ends in a next state or an error. -/

namespace Sys2Proof.Machine

theorem next_ne_refused (s : State) (r : Refusal) : (.next s : Out) ≠ .refused r := nofun

theorem fault_ne_refused (e : Fault) (r : Refusal) : (.fault e : Out) ≠ .refused r := nofun

/-- An access in memory ends in its `next` or raises (R56). -/
theorem guarded_ne_refused (c : Bool) (e : Fault) (u : State) (r : Refusal) :
    (if c then next u else raise e) ≠ .refused r := by
  cases c with
  | true => exact next_ne_refused _ r
  | false => exact fault_ne_refused e r

/-- Every instruction has a meaning, which ends in a next state or an error (R104). -/
theorem exec_ne_refused (i : Instr) (s : State) (r : Refusal) : exec i s ≠ .refused r := by
  cases i with
  | ret =>
    by_cases hs : s.sp.val = 0
    · rw [exec_ret_empty s hs]; exact fault_ne_refused _ r
    · rw [exec_ret_next s (by omega)]; exact next_ne_refused _ r
  | call nnn =>
    by_cases hs : s.sp.val < 16
    · rw [exec_call_next s nnn hs]; exact next_ne_refused _ r
    · rw [exec_call_full s nnn (by omega)]; exact fault_ne_refused _ r
  | drw | ldBVx | ldMemVx | ldVxMem => exact guarded_ne_refused _ _ _ r
  | _ => exact next_ne_refused _ r

theorem step_ne_refused (s : State) (r : Refusal) : step s ≠ .refused r := by
  unfold step
  split
  · exact fault_ne_refused _ r
  · exact fault_ne_refused _ r
  · exact exec_ne_refused _ s r

end Sys2Proof.Machine

open Sys2Proof.Machine

/-- Settles O10: the fetch, `Unknown` and every arm of the executor answer a next state or an error. -/
theorem stepNeverRefuses : Obligations.StepNeverRefuses := step_ne_refused
end

section
/-! SUPPORT. One cycle: the step by the fetch and the decoder, the fetch of a placed opcode, the `Tick` that waits, and
two runs that differ in the inputs of the host. -/

namespace Sys2Proof.Machine

/-! ### The step, by what is fetched (R101) -/

section Step

variable {s : State}

theorem step_of_instr {i : Instr} (hp : s.pc.toNat ≤ 4094) (hd : decode s.params.strictXY0 s.opcodeAtPc = .instr i) :
    step s = exec i s := by
  rw [step, State.fetchDecode_of_le hp, hd]

theorem step_of_unknown {raw : Word} (hp : s.pc.toNat ≤ 4094)
    (hd : decode s.params.strictXY0 s.opcodeAtPc = .unknown raw) : step s = .fault (.unimplementedOpcode raw) := by
  rw [step, State.fetchDecode_of_le hp, hd]
  rfl

theorem step_of_gt (hp : s.pc.toNat > 4094) : step s = .fault .outOfBoundsAddress := by
  rw [step, State.fetchDecode_of_gt hp]
  rfl

end Step

/-! ### The inputs of the host (R38) -/

/-- The key vectors still supplied and the count of their samples replaced (R221, assumption 1). -/
def State.setKeys (s : State) (ks : List Config.Keys) (kn : Nat) : State :=
  { s with keyInputs := ks, keySamples := kn }

/-- The random bytes still supplied and the count of those drawn replaced (R222, assumption 2). -/
def State.setRnd (s : State) (rs : List Byte) (rn : Nat) : State := { s with rndInputs := rs, rndSamples := rn }

theorem keeps_setKeys {rs : List Reg} {ps : List Part} (s : State) (ks : List Config.Keys) (kn : Nat)
    (h : .keys ∈ ps) : Keeps rs ps s (s.setKeys ks kn) :=
  ⟨fun _ _ => rfl, fun _ => rfl, fun _ => ⟨rfl, fun _ => rfl⟩, fun _ _ _ => rfl, fun _ => rfl,
    fun _ => rfl, fun _ _ => rfl, fun hp => absurd h hp, fun _ => ⟨rfl, rfl⟩, rfl⟩

/-! ### A placed opcode (R52) -/

/-- The two bytes of an opcode in memory order are the opcode again (R52). -/
theorem opcodeOf_extract (op : Word) : opcodeOf (op.extractLsb' 8 8) (op.extractLsb' 0 8) = op := by
  apply BitVec.eq_of_toNat_eq
  rw [opcodeOf, toNat_append, BitVec.extractLsb'_toNat, BitVec.extractLsb'_toNat, Nat.shiftRight_eq_div_pow]
  omega

/-- The two bytes an opcode was stored as are read back as the opcode. -/
theorem Memory.opcodeOf_read_writeBytes (m : Memory) (a : Nat) (op : Word) :
    opcodeOf ((m.writeBytes a (opcodeBytes op)).read a) ((m.writeBytes a (opcodeBytes op)).read (a + 1)) = op := by
  have h0 : (m.writeBytes a (opcodeBytes op)).read a = op.extractLsb' 8 8 := by
    simp [Memory.read_writeBytes, opcodeBytes]
  have h1 : (m.writeBytes a (opcodeBytes op)).read (a + 1) = op.extractLsb' 0 8 := by
    simp [Memory.read_writeBytes, opcodeBytes]
  rw [h0, h1, opcodeOf_extract]

/-- Where no fetch is possible the opcode is placed at 0x200, so afterwards one is. -/
theorem State.placeOpcode_pc_le (s : State) (op : Word) : (s.placeOpcode op).pc.toNat ≤ 4094 := by
  simp only [State.placeOpcode, State.canFetch, State.setMem_pc, State.setPc_pc, decide_eq_true_eq]
  split
  case isTrue h => exact h
  case isFalse => decide

theorem State.opcodeAtPc_placeOpcode (s : State) (op : Word) : (s.placeOpcode op).opcodeAtPc = op :=
  Memory.opcodeOf_read_writeBytes _ _ op

/-! ### The `Tick` that waits (R108) -/

theorem anyPressed_eq_false_iff (keys : Config.Keys) :
    anyPressed keys = false ↔ ∀ k : Fin 16, keys[k.val] = false := by
  rw [← Bool.not_eq_true, anyPressed_iff]
  simp [pressed]

theorem State.waits_iff (s : State) : s.waits = true ↔ s.pc.toNat ≤ 4094 ∧
    (∃ x, decode s.params.strictXY0 s.opcodeAtPc = .instr (.ldVxK x)) ∧ anyPressed s.keys = false := by
  by_cases hp : s.pc.toNat ≤ 4094
  · rw [State.waits, State.fetchDecode_of_le hp]
    cases decode s.params.strictXY0 s.opcodeAtPc with
    | unknown raw => simp
    | instr i => cases i <;> simp [hp]
  · rw [State.waits, State.fetchDecode_of_gt (by omega)]
    simp [hp]

/-- A `Tick` that waits only uses up its sample of the keys (assumption 1). -/
theorem tick_of_waits {s : State} (h : s.waits = true) : tick s = (s.takeKeys, .waiting) := by
  obtain ⟨hp, ⟨x, hd⟩, hk⟩ := s.waits_iff.1 h
  rw [tick, step_of_instr hp hd, exec_ldVxK_wait s x hk]
  simp only [h, if_true]

theorem tick_waiting_iff (s : State) : (tick s).2 = .waiting ↔ s.waits = true := by
  refine ⟨fun h => ?_, fun h => by rw [tick_of_waits h]⟩
  unfold tick at h
  split at h
  case h_1 t hs =>
    by_contra hw
    simp [hw] at h
  case h_2 | h_3 => cases h

/-! ### Who reads the inputs of the host (R109) -/

/-- Besides `SKP`, `SKNP` and `LD Vx,K` no instruction sees or uses up the keys (R221). -/
theorem exec_setKeys {i : Instr} (s : State) (ks : List Config.Keys) (kn : Nat)
    (hi : ∀ x, i ≠ .skp x ∧ i ≠ .sknp x ∧ i ≠ .ldVxK x) :
    exec i (s.setKeys ks kn) = mapNext (fun t => t.setKeys ks kn) (exec i s) := by
  cases i with
  | skp x | sknp x | ldVxK x => simpa using hi x
  | ret => exact exec_ret_eq_mapNext (f := fun t => t.setKeys ks kn) rfl rfl fun _ _ _ => rfl
  | call nnn => exact exec_call_eq_mapNext (f := fun t => t.setKeys ks kn) nnn rfl rfl rfl fun _ _ _ => rfl
  | drw | ldBVx | ldMemVx | ldVxMem => exact guarded_eq_mapNext rfl
  | _ => rfl

/-- Besides `RND` no instruction sees or uses up the random byte (R222). -/
theorem exec_setRnd {i : Instr} (s : State) (rs : List Byte) (rn : Nat) (hi : ∀ x kk, i ≠ .rnd x kk) :
    exec i (s.setRnd rs rn) = mapNext (fun t => t.setRnd rs rn) (exec i s) := by
  cases i with
  | rnd x kk => exact absurd rfl (hi x kk)
  | ret => exact exec_ret_eq_mapNext (f := fun t => t.setRnd rs rn) rfl rfl fun _ _ _ => rfl
  | call nnn => exact exec_call_eq_mapNext (f := fun t => t.setRnd rs rn) nnn rfl rfl rfl fun _ _ _ => rfl
  | ldVxK x => exact nextOrWait_eq_mapNext rfl rfl
  | drw | ldBVx | ldMemVx | ldVxMem => exact guarded_eq_mapNext rfl
  | _ => rfl

end Sys2Proof.Machine

open Sys2Proof Sys2Proof.Machine

/-- Settles O6: the fetch is possible and the decoder answers an instruction. -/
theorem stepRunsDecodedInstruction : Obligations.StepRunsDecodedInstruction :=
  fun _ _ hp hd => step_of_instr hp hd

/-- Settles O7: no fetch is possible. -/
theorem stepFetchOutOfBounds : Obligations.StepFetchOutOfBounds :=
  fun _ hp => step_of_gt hp

/-- Settles O8: the fetch is possible and the decoder answers `Unknown`. -/
theorem stepUnknownOpcode : Obligations.StepUnknownOpcode :=
  fun _ _ hp hd => step_of_unknown hp hd

/-- Settles O59: the placed opcode is the one fetched, the parameters being as they were. -/
theorem placedOpcodeRuns : Obligations.PlacedOpcodeRuns := by
  intro s w i hw hd
  rw [State.withFetchWord, Nat.mod_eq_of_lt (b := 2 ^ 16) hw]
  refine step_of_instr (s.placeOpcode_pc_le _) ?_
  rw [State.opcodeAtPc_placeOpcode]
  exact hd

/-- Settles O14: a `Tick` answers `Waiting` where its state waits, and then changes only the count of samples. -/
theorem tickWaitsExactly : Obligations.TickWaitsExactly := by
  intro keys rnd s
  have hiff : (tickWith keys rnd s).2 = .waiting ↔
      ({ s with keyInputs := [keys], rndInputs := [rnd] } : State).waits = true := tick_waiting_iff _
  refine ⟨?_, fun h => ?_⟩
  · rw [hiff, State.waits_iff, ← anyPressed_eq_false_iff]
    exact Iff.rfl
  · rw [tickWith, tick_of_waits (hiff.1 h)]
    exact ⟨keeps_setKeys s s.keyInputs (s.keySamples + 1) (List.mem_singleton_self _), rfl⟩

/-- Settles O22: the executor commutes with a change of the inputs, by the constructors of `Instr`. -/
theorem inputsReadOnlyBy : Obligations.InputsReadOnlyBy :=
  fun _ s ks kn rs rn => ⟨exec_setKeys s ks kn, exec_setRnd s rs rn⟩
end

section
/-! SUPPORT. Control flow: `RET` and `CALL` by the entry `sp` names, the host operations that leave a cleared display
clear, and the step over a zero opcode. -/

namespace Sys2Proof.Machine

/-! ### The stack (R30), `sp` given as the entry below or at it -/

section Stack

variable {s : State} {k : Fin 16}

theorem exec_ret_of_sp (h : s.sp = k.succ) :
    exec .ret s = .next ((s.setStack s.stack k.castSucc).setPc s.stack[k.val]) := by
  rw [exec_ret_next s (by simp [h])]
  simp only [h]
  rfl

theorem exec_call_of_sp (nnn : Addr) (h : s.sp = k.castSucc) : exec (.call nnn) s =
    .next ((s.setStack (s.stack.set k.val (s.pc + 2)) k.succ).setPc (zext16 nnn)) := by
  rw [exec_call_next s nnn (by simp [h])]
  simp only [h]
  rfl

end Stack

/-! ### The display after `CLS` (R120, R219) -/

/-- Only a `Tick` draws: `Reset` clears the display, `LoadProgram` and `TimerTick` leave it as it is. -/
theorem perform_keeps_display_clear {op : HostOp} {s : State} (hop : ∀ keys rnd, op ≠ .tick keys rnd)
    (hs : s.display = Display.clear) : (perform op s).1.display = Display.clear := by
  cases op with
  | tick keys rnd => exact absurd rfl (hop keys rnd)
  | reset => rfl
  | timerTick => exact hs
  | loadProgram bytes =>
    rw [perform, loadProgram]
    split
    · exact hs
    · exact hs

theorem performAll_keeps_display_clear {ops : List HostOp} {s : State}
    (hops : ∀ op ∈ ops, ∀ keys rnd, op ≠ .tick keys rnd) (hs : s.display = Display.clear) :
    (performAll ops s).display = Display.clear :=
  List.foldlRecOn (motive := fun t : State => t.display = Display.clear) ops _ hs
    fun _ ht op hm => perform_keeps_display_clear (hops op hm) ht

/-! ### Zeroed memory (R122) -/

/-- The opcode 0 is `SYS 0`. -/
theorem decode_zero (strict : Bool) : decode strict 0#16 = .instr (.sys 0#12) := rfl

theorem step_of_zero {s : State} (hp : s.pc.toNat ≤ 4094) (h0 : s.mem.read s.pc.toNat = 0#8)
    (h1 : s.mem.read (s.pc.toNat + 1) = 0#8) : step s = .next (s.setPc (s.pc + 2)) := by
  have hop : s.opcodeAtPc = 0#16 := by rw [State.opcodeAtPc, h0, h1]; rfl
  rw [step_of_instr hp (hop ▸ decode_zero _)]
  rfl

end Sys2Proof.Machine

open Sys2Proof.Machine

/-- Settles O26: the display is replaced by the clear one. -/
theorem clsClearsDisplay : Obligations.ClsClearsDisplay :=
  fun s => ⟨_, rfl, Display.get_clear, rfl, keeps_exec (i := .cls) (s := s) rfl⟩

/-- Settles O28: `SYS` is its ending alone. -/
theorem sysDoesNothing : Obligations.SysDoesNothing :=
  fun _ s => ⟨_, rfl, rfl, keeps_setPc s _⟩

/-- Settles O29: each jump writes `pc` alone, and neither target wraps. -/
theorem jumpTargets : Obligations.JumpTargets :=
  fun nnn s => ⟨⟨_, rfl, toNat_zext16 nnn, keeps_setPc s _⟩, _, rfl, toNat_sumTarget nnn _, keeps_setPc s _⟩

/-- Settles O27: the entry `RET` jumps to is the one below `sp`, and only `sp` and `pc` are written. -/
theorem retPops : Obligations.RetPops := by
  refine fun s => ⟨exec_ret_empty s, fun k hk => ?_⟩
  have hret := exec_ret_of_sp (s := s) (k := k) (Fin.ext hk)
  exact ⟨_, hret, rfl, rfl, fun _ => rfl, keeps_exec hret⟩

/-- Settles O30: the entry `CALL` writes is the one at `sp`, so every other one is kept. -/
theorem callPushes : Obligations.CallPushes := by
  refine fun nnn s => ⟨exec_call_full s nnn, fun k hk => ?_⟩
  have hcall := exec_call_of_sp (s := s) (k := k) nnn (Fin.ext hk)
  refine ⟨_, hcall, toNat_zext16 nnn, rfl, Vector.getElem_set_self _, fun j hj => ?_, keeps_exec hcall⟩
  exact Vector.getElem_set_ne k.isLt j.isLt fun he => hj (Fin.ext he.symm)

/-- Settles O31: `RET` jumps to the entry the `CALL` wrote, which the later state still holds below the same `sp`. -/
theorem callThenRetReturns : Obligations.CallThenRetReturns := by
  refine fun nnn s => ⟨exec_call_full s nnn, fun k hk => ?_⟩
  have hsp : s.sp = k.castSucc := Fin.ext hk
  refine ⟨_, exec_call_of_sp nnn hsp, fun u husp hentry => ?_⟩
  refine ⟨_, exec_ret_of_sp husp, ?_, hsp.symm⟩
  rw [State.setPc_pc, hentry]
  exact Vector.getElem_set_self _

/-- Settles O58: `CLS` leaves a clear display, and no operation but a `Tick` changes that. -/
theorem framebufferAfterCls : Obligations.FramebufferAfterCls := by
  intro s t ops h hops px py
  have ht : t.display = Display.clear := congrArg State.display (eq_of_next h)
  rw [framebuffer, performAll_keeps_display_clear hops ht]
  exact Display.get_clear px py

/-- Settles O60: by induction on the number of steps, the run going on from the state after the first `SYS 0`. -/
theorem zeroedMemoryRun : Obligations.ZeroedMemoryRun := by
  intro s k hk hz
  induction k generalizing s with
  | zero => exact ⟨s, rfl, rfl, Keeps.rfl' _ _ s, fun hend => run_succ_of_fault 0 (step_of_gt hend)⟩
  | succ k ih =>
    have hp : s.pc.toNat ≤ 4094 := by omega
    have hstep := step_of_zero hp (hz _ (by omega) (by omega)) (hz _ (by omega) (by omega))
    have hpc : (s.setPc (s.pc + 2)).pc.toNat = s.pc.toNat + 2 := toNat_pc_of_next hp rfl rfl
    have hlen : s.pc.toNat + 2 + 2 * k = s.pc.toNat + 2 * (k + 1) := by omega
    obtain ⟨t, hrun, htpc, hkeeps, hend⟩ := ih (s.setPc (s.pc + 2)) (by rw [hpc]; omega)
      fun a hlo hhi => hz a (by omega) (by omega)
    rw [hpc, hlen] at htpc hend
    exact ⟨t, (run_succ_of_next k hstep).trans hrun, htpc, (keeps_setPc s _).trans hkeeps,
      fun h => (run_succ_of_next (k + 1) hstep).trans (hend h)⟩
end

section
/-! SUPPORT. The conditional skips: an instruction that ends in `skipIf` advances `pc` by 4 where its condition holds and
by 2 where it fails; the key skips also use up the sample of the keys. -/

namespace Sys2Proof.Machine

/-! ### The advance of `skipIf` (R25) -/

section Advance

variable {c : Bool} (w : Word)

theorem skip_advance_of_true (h : c = true) : (w + if c then 4 else 2) = w + 4 := by rw [h]; rfl

theorem skip_advance_of_false (h : c = false) : (w + if c then 4 else 2) = w + 2 := by rw [h]; rfl

/-- The two advances change places where the condition is negated (R135). -/
theorem skip_advance_not (c : Bool) : (w + if !c then 4 else 2) = w + if c then 2 else 4 := by
  cases c
  · rfl
  · rfl

end Advance

section Skips

variable {c : Bool} {P Q : Prop} (s : State) (h4 : P → c = true) (h2 : Q → c = false)
include h4 h2

/-- A skip on a comparison changes `pc` alone. -/
theorem skipIf_outcome : ∃ t, skipIf c s = .next t ∧ Keeps [] [] s t ∧
    (P → t.pc = s.pc + 4) ∧ (Q → t.pc = s.pc + 2) :=
  ⟨_, rfl, keeps_setPc s _, fun h => skip_advance_of_true s.pc (h4 h), fun h => skip_advance_of_false s.pc (h2 h)⟩

/-- A skip on a key changes `pc` and uses up the sample of the keys (R221, assumption 1). -/
theorem skipIf_takeKeys_outcome : ∃ t, skipIf c s.takeKeys = .next t ∧ Keeps [] [.keys] s t ∧
    t.keyInputs = s.keyInputs.tail ∧ (P → t.pc = s.pc + 4) ∧ (Q → t.pc = s.pc + 2) :=
  ⟨_, rfl, (keeps_takeKeys s (List.mem_singleton_self _)).trans (keeps_setPc _ _), rfl,
    fun h => skip_advance_of_true s.pc (h4 h), fun h => skip_advance_of_false s.pc (h2 h)⟩

end Skips

/-! ### The keys (R134, R221) -/

theorem val_lowNibble (b : Byte) : (lowNibble b).val = b.toNat % 16 := BitVec.extractLsb'_toNat 0 4 b

theorem State.keys_of_cons {s : State} {keys : Config.Keys} {rest : List Config.Keys}
    (h : s.keyInputs = keys :: rest) : s.keys = keys := by
  rw [State.keys, h]

section Tick

variable {s : State} {x : Reg} {keys : Config.Keys} (rnd : Byte) (hp : s.pc.toNat ≤ 4094)
include hp

/-- A `Tick` that runs `SKP` skips by the key vector given to it. -/
theorem tickWith_skp (hd : decode s.params.strictXY0 s.opcodeAtPc = .instr (.skp x)) :
    (tickWith keys rnd s).2 = .ok ∧
      (tickWith keys rnd s).1.pc = s.pc + if pressed keys (lowNibble (s.reg x)) then 4 else 2 := by
  rw [tickWith_of_next hp hd rfl]
  exact ⟨rfl, rfl⟩

/-- A `Tick` that runs `SKNP` skips by the key vector given to it. -/
theorem tickWith_sknp (hd : decode s.params.strictXY0 s.opcodeAtPc = .instr (.sknp x)) :
    (tickWith keys rnd s).2 = .ok ∧
      (tickWith keys rnd s).1.pc = s.pc + if pressed keys (lowNibble (s.reg x)) then 2 else 4 := by
  rw [tickWith_of_next hp hd rfl]
  exact ⟨rfl, skip_advance_not s.pc _⟩

end Tick

end Sys2Proof.Machine

open Sys2Proof Sys2Proof.Machine

/-- Settles O34: both key skips test the key of the low nibble, in the first vector supplied. -/
theorem keySkips : Obligations.KeySkips := by
  intro x s k hk
  obtain rfl : k = lowNibble (s.reg x) := Fin.ext (hk.trans (val_lowNibble _).symm)
  exact ⟨skipIf_takeKeys_outcome s id id,
    skipIf_takeKeys_outcome s (Bool.not_eq_true' _).mpr (Bool.not_eq_false' _).mpr,
    fun _ _ => State.keys_of_cons, fun _ rnd hp => ⟨tickWith_skp rnd hp, tickWith_sknp rnd hp⟩⟩

/-- Settles O32: the opcode is the encoding of `SE Vx,kk`, which skips on an equality test. -/
theorem seImmSkipsIfEqual : Obligations.SeImmSkipsIfEqual := by
  intro x kk
  refine ⟨fun strict => ?_, fun s => skipIf_outcome s beq_iff_eq.mpr beq_eq_false_iff_ne.mpr⟩
  rw [ofNat_val_eq_regBits]
  exact decode_encode strict (.seImm x kk) rfl

/-- Settles O33: each skips on a test of equality or inequality. -/
theorem otherComparesSkip : Obligations.OtherComparesSkip := fun _ _ _ s =>
  ⟨skipIf_outcome s bne_iff_ne.mpr bne_eq_false_iff_eq.mpr,
    skipIf_outcome s beq_iff_eq.mpr beq_eq_false_iff_ne.mpr,
    skipIf_outcome s bne_iff_ne.mpr bne_eq_false_iff_eq.mpr⟩
end

section
/-! SUPPORT. Immediate loads and arithmetic: the register an instruction has just written, and the random byte of a
step. -/

namespace Sys2Proof.Machine

theorem State.reg_setReg_same (s : State) (r : Reg) (b : Byte) : (s.setReg r b).reg r = b :=
  (s.reg_setReg r r b).trans (if_pos rfl)

/-! ### The random byte (R143, R222) -/

theorem State.rnd_of_cons {s : State} {b : Byte} {rest : List Byte} (h : s.rndInputs = b :: rest) : s.rnd = b := by
  rw [State.rnd, h]

/-- Where the host supplied no byte it is a free value (assumption 2). -/
theorem State.rnd_of_nil {s : State} (h : s.rndInputs = []) : s.rnd = Config.freeRnd s.rndSamples := by
  rw [State.rnd, h]

theorem exec_rnd (x : Reg) (kk : Byte) (s : State) :
    exec (.rnd x kk) s = .next ((s.takeRnd.setReg x (s.rnd &&& kk)).setPc (s.pc + 2)) := rfl

/-- A `Tick` that runs `RND` masks the byte given to it. -/
theorem tickWith_rnd {s : State} {x : Reg} {kk : Byte} (keys : Config.Keys) (b : Byte) (hp : s.pc.toNat ≤ 4094)
    (hd : decode s.params.strictXY0 s.opcodeAtPc = .instr (.rnd x kk)) :
    (tickWith keys b s).2 = .ok ∧ (tickWith keys b s).1.reg x = b &&& kk := by
  rw [tickWith_of_next hp hd (exec_rnd x kk _)]
  exact ⟨rfl, State.reg_setReg_same _ x (b &&& kk)⟩

end Sys2Proof.Machine

open Sys2Proof Sys2Proof.Machine

/-- Settles O37: `RND` writes the masked byte of the step, which is the first one supplied or a free value. -/
theorem rndMasksRandomByte : Obligations.RndMasksRandomByte := by
  refine fun x kk s => ⟨⟨_, exec_rnd x kk s, ?_⟩, fun keys b => tickWith_rnd keys b⟩
  have hreg : ((s.takeRnd.setReg x (s.rnd &&& kk)).setPc (s.pc + 2)).reg x = s.rnd &&& kk :=
    State.reg_setReg_same _ x _
  refine ⟨hreg, fun b rest hin => ⟨?_, congrArg List.tail hin⟩, fun hin => ⟨?_, congrArg List.tail hin⟩, rfl, rfl,
    keeps_exec (exec_rnd x kk s)⟩
  · rw [hreg, State.rnd_of_cons hin]
  · rw [hreg, State.rnd_of_nil hin]

/-- Settles O35: both write one register; the sum of two bytes is taken mod 256. -/
theorem immediateLoadAndAdd : Obligations.ImmediateLoadAndAdd := by
  refine fun x kk s => ⟨⟨_, rfl, State.reg_setReg_same s x kk, rfl, keeps_exec (i := .ldImm x kk) rfl⟩,
    ⟨_, rfl, ?_, rfl, keeps_exec (i := .addImm x kk) rfl⟩⟩
  have hsum := State.reg_setReg_same s x (s.reg x + kk)
  exact (congrArg BitVec.toNat hsum).trans (BitVec.toNat_add _ kk)

/-- Settles O36: the address fits in `I`, the one part written. -/
theorem ldILoadsAddress : Obligations.LdILoadsAddress :=
  fun nnn _ => ⟨_, rfl, toNat_zext16 nnn, rfl, keeps_exec (i := .ldI nnn) rfl⟩
end

section
/-! SUPPORT. The register-register ALU: an instruction writes one result, or a result and last the flag; the flag bytes
and the results as numbers. -/

namespace Sys2Proof.Machine

/-! ### The two forms of an ALU instruction -/

section Outcomes

variable (s : State) (x : Reg) {r : Byte} {f : Bool}

/-- A result alone: VF is no different from another destination (R150 to R153). -/
theorem next_setReg_outcome :
    ∃ t, next (s.setReg x r) = .next t ∧ t.reg x = r ∧ t.pc = s.pc + 2 ∧ Keeps [x] [] s t :=
  ⟨_, rfl, s.reg_setReg_same x r, rfl, (keeps_setReg s r (List.mem_singleton_self x)).trans_next rfl⟩

/-- A result given bit by bit. -/
theorem next_setReg_outcome_bits {bit : Nat → Bool} (hr : ∀ b, r.getLsbD b = bit b) :
    ∃ t, next (s.setReg x r) = .next t ∧ t.pc = s.pc + 2 ∧ Keeps [x] [] s t ∧ ∀ b, (t.reg x).getLsbD b = bit b := by
  obtain ⟨t, ht, hx, hpc, hkeeps⟩ := next_setReg_outcome s x (r := r)
  exact ⟨t, ht, hpc, hkeeps, fun b => hx ▸ hr b⟩

/-- A result with its flag: the flag is written last, so it is what stays where `x` is VF (R159). -/
theorem next_setResult_outcome : ∃ t, next (s.setResult x r f) = .next t ∧ (x ≠ 15 → t.reg x = r) ∧
    t.reg 15 = flagByte f ∧ t.pc = s.pc + 2 ∧ Keeps [x, 15] [] s t := by
  refine ⟨_, rfl, fun hx => ?_, ?_, rfl, Keeps.trans_next (keeps_setResult s r f ?_ ?_) rfl⟩
  · rw [State.reg_setPc, State.reg_setResult, if_neg hx, if_pos rfl]
  · rw [State.reg_setPc, State.reg_setResult, if_pos rfl]
  · exact List.mem_cons_self
  · exact List.mem_cons_of_mem x (List.mem_singleton_self 15)

end Outcomes

/-! ### Flags and results as numbers (R14, R33) -/

section Numbers

variable (a b : Byte)

theorem flagByte_carryFlag : flagByte (carryFlag a b) = if a.toNat + b.toNat > 255 then 1#8 else 0#8 := by
  simp only [flagByte, carryFlag, decide_eq_true_eq]

theorem flagByte_notBorrow : flagByte (notBorrow a b) = if a.toNat ≥ b.toNat then 1#8 else 0#8 := by
  simp only [flagByte, notBorrow, decide_eq_true_eq]

theorem toNat_flagByte (f : Bool) : (flagByte f).toNat = f.toNat := by
  cases f
  · rfl
  · rfl

theorem toNat_flagByte_lsbFlag : (flagByte (lsbFlag a)).toNat = a.toNat % 2 := by
  rw [toNat_flagByte, lsbFlag, ← BitVec.testBit_toNat, Nat.toNat_testBit, Nat.pow_zero, Nat.div_one]

theorem toNat_flagByte_msbFlag : (flagByte (msbFlag a)).toNat = a.toNat / 128 := by
  have ha := a.isLt
  rw [toNat_flagByte, msbFlag, ← BitVec.testBit_toNat, Nat.toNat_testBit]
  omega

theorem toNat_sub_emod : ((a - b).toNat : Int) = (a.toNat - b.toNat : Int) % 256 := by
  have hb := b.isLt
  rw [BitVec.toNat_sub]
  omega

theorem toNat_shiftRight_one : (a >>> 1).toNat = a.toNat / 2 := by
  rw [BitVec.toNat_ushiftRight, Nat.shiftRight_eq_div_pow, Nat.pow_one]

theorem toNat_shiftLeft_one : (a <<< 1).toNat = 2 * a.toNat % 256 := by
  rw [BitVec.toNat_shiftLeft, Nat.shiftLeft_eq, Nat.pow_one, Nat.mul_comm]

end Numbers

section NumberedOutcomes

variable (s : State) (x : Reg)

/-- A result and a flag known by their numbers. -/
theorem next_setResult_outcome_toNat {r : Byte} {f : Bool} {n m : Nat} (hr : r.toNat = n)
    (hf : (flagByte f).toNat = m) : ∃ t, next (s.setResult x r f) = .next t ∧ (x ≠ 15 → (t.reg x).toNat = n) ∧
      (t.reg 15).toNat = m ∧ t.pc = s.pc + 2 ∧ Keeps [x, 15] [] s t := by
  obtain ⟨t, ht, hx, hflag, hrest⟩ := next_setResult_outcome s x (r := r) (f := f)
  exact ⟨t, ht, fun hne => hx hne ▸ hr, hflag ▸ hf, hrest⟩

/-- A difference with the flag of no borrow, whichever register is taken from the other (R155, R157). -/
theorem next_sub_outcome (a b : Byte) : ∃ t, next (s.setResult x (a - b) (notBorrow a b)) = .next t ∧
    (x ≠ 15 → ((t.reg x).toNat : Int) = (a.toNat - b.toNat : Int) % 256) ∧
    (t.reg 15 = if a.toNat ≥ b.toNat then 1#8 else 0#8) ∧ t.pc = s.pc + 2 ∧ Keeps [x, 15] [] s t := by
  obtain ⟨t, ht, hx, hflag, hrest⟩ := next_setResult_outcome s x (r := a - b) (f := notBorrow a b)
  exact ⟨t, ht, fun hne => hx hne ▸ toNat_sub_emod a b, hflag.trans (flagByte_notBorrow a b), hrest⟩

end NumberedOutcomes

end Sys2Proof.Machine

open Sys2Proof Sys2Proof.Machine

/-- Settles O40: the sum of two bytes is taken mod 256, and the carry is written last. -/
theorem addRegResult : Obligations.AddRegResult := by
  intro x y s
  obtain ⟨t, ht, hx, hflag, hrest⟩ := next_setResult_outcome s x
  refine ⟨t, ht, fun hne => ?_, hflag.trans (flagByte_carryFlag _ _), hrest⟩
  rw [hx hne, BitVec.toNat_add]

/-- Settles O41: Vy is taken from Vx. -/
theorem subRegResult : Obligations.SubRegResult :=
  fun x y s => next_sub_outcome s x (s.reg x) (s.reg y)

/-- Settles O42: Vx is taken from Vy. -/
theorem subnRegResult : Obligations.SubnRegResult :=
  fun x y s => next_sub_outcome s x (s.reg y) (s.reg x)

/-- Settles O43: a shift by one halves or doubles the number of the byte, and the bit it drops is written last. -/
theorem shiftResults : Obligations.ShiftResults := fun x s =>
  ⟨next_setResult_outcome_toNat s x (toNat_shiftRight_one _) (toNat_flagByte_lsbFlag _),
    next_setResult_outcome_toNat s x (toNat_shiftLeft_one _) (toNat_flagByte_msbFlag _)⟩

/-- Settles O38: each opcode is the encoding of its instruction, which writes the bitwise result to one register. -/
theorem bitwiseResults : Obligations.BitwiseResults := by
  refine fun x y => ⟨fun strict => ?_, fun s => ⟨?_, ?_, ?_⟩⟩
  · rw [ofNat_val_eq_regBits, ofNat_val_eq_regBits]
    exact ⟨decode_encode strict (.orReg x y) rfl, decode_encode strict (.andReg x y) rfl,
      decode_encode strict (.xorReg x y) rfl⟩
  · exact next_setReg_outcome_bits s x fun _ => BitVec.getLsbD_or
  · exact next_setReg_outcome_bits s x fun _ => BitVec.getLsbD_and
  · exact next_setReg_outcome_bits s x fun _ => BitVec.getLsbD_xor

/-- Settles O39: one register is written, with the byte of the other. -/
theorem ldRegCopies : Obligations.LdRegCopies :=
  fun x _ s => next_setReg_outcome s x
end

section
/-! SUPPORT. The sprite draw: a `DRW` that completes inverts the pixels its sprite covers and no others, and its flag
tells of a lit pixel turned off. -/

namespace Sys2Proof.Machine

theorem flagByte_eq_one_iff (f : Bool) : flagByte f = 1#8 ↔ f = true := by
  cases f
  · decide
  · decide

/-- `xor` with a condition changes a Boolean exactly where the condition holds. -/
theorem xor_decide_ne_iff (a : Bool) (p : Prop) [Decidable p] : (a ^^ decide p) ≠ a ↔ p := by
  cases a
  · simp
  · simp

/-- What changes both times or neither time is in the end as it was at first. -/
theorem eq_of_ne_iff_ne {a b c : Bool} (h : c ≠ b ↔ b ≠ a) : c = a := by
  revert a b c
  decide

section Draw

variable {x y : Reg} {n : Fin 16} {s t : State}

/-- A `DRW` that completes: a pixel changes exactly where the sprite covers it with a 1 bit, and VF is 1 exactly where
the sprite covers a lit pixel (R33, R170 to R173). -/
theorem exec_drw_outcome (h : exec (.drw x y n) s = .next t) :
    (∀ px py, t.pixel px py ≠ s.pixel px py ↔ covers s x y n.val px py) ∧
    (t.reg 15 = 1#8 ↔ ∃ px py, covers s x y n.val px py ∧ s.pixel px py = true) := by
  obtain ⟨-, h⟩ := next_of_guarded h
  obtain ⟨hget, hflag⟩ := blit_spec s.display (s.reg x).toNat (s.reg y).toNat (s.mem.readBytes s.i.toNat n.val)
    (by rw [Memory.length_readBytes]; omega)
  refine ⟨fun px py => ?_, ?_⟩
  · have hpixel : t.pixel px py = _ := (congrArg (State.pixel · px py) (eq_of_next h)).trans (hget px py)
    rw [hpixel, ← mem_spritePixels_iff_covers]
    exact xor_decide_ne_iff _ _
  · rw [eq_of_next h, State.reg_setPc, State.reg_setFlag, if_pos rfl, flagByte_eq_one_iff]
    simpa only [mem_spritePixels_iff_covers, State.pixel] using hflag

/-- VF is 1 exactly where a lit pixel was turned off: a lit pixel changes by being turned off (R33, R170). -/
theorem reg_VF_eq_one_iff_turned_off (h : exec (.drw x y n) s = .next t) :
    t.reg 15 = 1#8 ↔ ∃ px py, s.pixel px py = true ∧ t.pixel px py = false := by
  obtain ⟨hpixel, hflag⟩ := exec_drw_outcome h
  rw [hflag]
  refine exists₂_congr fun px py => ?_
  rw [← hpixel, and_comm]
  refine and_congr_right fun hlit => ?_
  rw [hlit, Ne, Bool.not_eq_true]

/-- A `DRW` leaves `I` and memory as they were, so where it also leaves the coordinates, the same `DRW` covers the same
pixels after it. -/
theorem covers_iff_of_exec_drw (h : exec (.drw x y n) s = .next t) (hx : t.reg x = s.reg x) (hy : t.reg y = s.reg y)
    (px : Fin 64) (py : Fin 32) : covers t x y n.val px py ↔ covers s x y n.val px py := by
  have hkeeps : Keeps [15] [.display] s t := keeps_exec h
  have hi : t.i = s.i := hkeeps.index (by decide)
  have hmem : ∀ a, t.mem.read a = s.mem.read a := hkeeps.mem (by decide)
  simp only [covers, hi, hmem, hx, hy]

end Draw

end Sys2Proof.Machine

open Sys2Proof Sys2Proof.Machine

/-- Settles O44: the range check passes, and the covered pixels are those that change. -/
theorem drwBlits : Obligations.DrwBlits := by
  intro x y n s hr
  have h := exec_drw_next s x y n ((rangeOk_iff _ _).2 hr)
  obtain ⟨hpixel, -⟩ := exec_drw_outcome h
  refine ⟨_, h, fun px py => ⟨fun hc => ?_, fun hc => ?_⟩, reg_VF_eq_one_iff_turned_off h, ?_, rfl, keeps_exec h⟩
  · exact Bool.eq_not_iff.2 ((hpixel px py).2 hc)
  · exact not_not.1 (mt (hpixel px py).1 hc)
  · exact reg_VF_of_next_setFlag (next_of_guarded h).2

/-- Settles O46: both draws change the same pixels, so the second one changes back what the first one changed. -/
theorem drwTwiceRestores : Obligations.DrwTwiceRestores := by
  intro x y n s t u hst hx hy htu
  obtain ⟨hfirst, -⟩ := exec_drw_outcome hst
  obtain ⟨hsecond, -⟩ := exec_drw_outcome htu
  have hrestored (px : Fin 64) (py : Fin 32) : u.pixel px py = s.pixel px py := by
    refine eq_of_ne_iff_ne (b := t.pixel px py) ?_
    rw [hfirst, hsecond, covers_iff_of_exec_drw hst hx hy]
  refine ⟨hrestored, ?_⟩
  rw [reg_VF_eq_one_iff_turned_off htu]
  simp only [hrestored, and_comm]

/-- Settles O45: the range check fails. -/
theorem drwOutOfBounds : Obligations.DrwOutOfBounds :=
  fun x y n s hn hi => exec_drw_fault s x y n ((rangeOk_eq_false _ _).2 ⟨hn, hi⟩)
end

section
/-! SUPPORT. Timers, keys, index and memory: the key `LD Vx,K` loads, the new `I` as a number, the bytes stored from `I`
on and the registers loaded from there. -/

namespace Sys2Proof.Machine

/-! ### The key of `LD Vx,K` (R181) -/

theorem toNat_keyByte (k : Fin 16) : (keyByte k).toNat = k.val := by
  rw [keyByte, BitVec.toNat_ofNat]
  omega

/-- With a key pressed the selected key is pressed, and by default no lower one is (R181 c). -/
theorem keySelect_spec (p : Config.KeySelect) {keys : Config.Keys} (h : anyPressed keys = true) :
    pressed keys (keySelect p keys) = true ∧ (p = .lowest → ∀ j < keySelect p keys, pressed keys j = false) := by
  refine ⟨keySelect_pressed p h, ?_⟩
  rintro rfl
  exact (lowestPressed_spec h).2

section Tick

variable {s : State} {x : Reg} {keys : Config.Keys} (rnd : Byte) (hp : s.pc.toNat ≤ 4094)
  (hd : decode s.params.strictXY0 s.opcodeAtPc = .instr (.ldVxK x))
include hp hd

/-- A `Tick` that runs `LD Vx,K` with a key pressed in the vector given to it loads the key selected there. -/
theorem tickWith_ldVxK_pressed (h : anyPressed keys = true) : (tickWith keys rnd s).2 = .ok ∧
    (tickWith keys rnd s).1.reg x = keyByte (keySelect s.params.keySelect keys) := by
  rw [tickWith_of_next hp hd (exec_ldVxK_next _ x h)]
  exact ⟨if_pos h, State.reg_setReg_same _ x _⟩

/-- A `Tick` that runs `LD Vx,K` with no key pressed in the vector given to it waits (R108). -/
theorem tickWith_ldVxK_wait (h : anyPressed keys = false) : (tickWith keys rnd s).2 = .waiting ∧
    (tickWith keys rnd s).1.reg x = s.reg x ∧ (tickWith keys rnd s).1.pc = s.pc := by
  rw [tickWith_of_next hp hd (exec_ldVxK_wait _ x h)]
  exact ⟨if_neg (Bool.eq_false_iff.1 h), rfl, rfl⟩

end Tick

/-! ### The new `I` as a number (R184, R185) -/

theorem toNat_sumIndex (i : Word) (b : Byte) : (sumIndex i b).toNat = (i.toNat + b.toNat) % 65536 :=
  BitVec.toNat_ofNat _ _

/-- The constraint of D4 keeps the whole font below 0x200, so the address of a sprite does not wrap. -/
theorem toNat_fontAddress {p : Config.Params} (hp : paramsWf p = true) (d : Fin 16) :
    (fontAddress p d).toNat = p.fontBase.toNat + p.fontStride * d.val := by
  simp only [paramsWf, Bool.and_eq_true, decide_eq_true_eq] at hp
  obtain ⟨⟨hfont, -⟩, -⟩ := hp
  have hd : p.fontStride * d.val ≤ p.fontStride * 16 := Nat.mul_le_mul_left _ d.isLt.le
  rw [fontAddress, BitVec.toNat_ofNat]
  omega

/-! ### Bytes stored from `I` on (R53, R186, R187) -/

/-- The range check of an access to `lo`, ..., `lo + k`, both ends included (R56). -/
theorem rangeOk_succ (lo k : Nat) : rangeOk lo (k + 1) = true ↔ lo + k ≤ 4095 := by
  rw [rangeOk_iff]
  omega

theorem rangeOk_succ_eq_false (lo k : Nat) : rangeOk lo (k + 1) = false ↔ lo + k > 4095 := by
  rw [← Bool.not_eq_true, rangeOk_succ, not_le]

/-- Of several stored bytes, byte `k` stands at `lo + k`. -/
theorem Memory.read_writeBytes_add (m : Memory) (lo : Nat) {bs : List Byte} {k : Nat} (h : k < bs.length) :
    (m.writeBytes lo bs).read (lo + k) = bs.getD k 0#8 := by
  rw [Memory.read_writeBytes, if_pos (by omega), Nat.add_sub_cancel_left]

/-- The digits of a byte: each is small enough to be stored in a byte (R186). -/
theorem toNat_bcdDigits (b : Byte) : ((bcdDigits b).getD 0 0#8).toNat = b.toNat / 100 ∧
    ((bcdDigits b).getD 1 0#8).toNat = b.toNat / 10 % 10 ∧ ((bcdDigits b).getD 2 0#8).toNat = b.toNat % 10 := by
  have hb := b.isLt
  simp only [bcdDigits, List.getD_cons_zero, List.getD_cons_succ, BitVec.toNat_ofNat]
  omega

/-- `LD B,Vx` completes with the hundreds at `I`, the tens at `I + 1` and the ones at `I + 2` (R186). -/
theorem read_of_exec_ldBVx {x : Reg} {s t : State} (h : exec (.ldBVx x) s = .next t) :
    (t.mem.read s.i.toNat).toNat = (s.reg x).toNat / 100 ∧
    (t.mem.read (s.i.toNat + 1)).toNat = (s.reg x).toNat / 10 % 10 ∧
    (t.mem.read (s.i.toNat + 2)).toNat = (s.reg x).toNat % 10 := by
  obtain ⟨-, h⟩ := next_of_guarded h
  have hread (k : Nat) (hk : k < 3) : t.mem.read (s.i.toNat + k) = (bcdDigits (s.reg x)).getD k 0#8 := by
    rw [eq_of_next h]
    exact Memory.read_writeBytes_add _ _ hk
  have h0 := hread 0 (by decide)
  rw [Nat.add_zero] at h0
  rw [h0, hread 1 (by decide), hread 2 (by decide)]
  exact toNat_bcdDigits (s.reg x)

/-! ### Registers loaded from `I` on (R188) -/

/-- `LD Vx,[I]` completes with V[k] the byte at `I + k` up to Vx, and the registers above as they were (R188). -/
theorem reg_of_exec_ldVxMem {x : Reg} {s t : State} (h : exec (.ldVxMem x) s = .next t) (k : Reg) :
    t.reg k = if k ≤ x then s.mem.read (s.i.toNat + k.val) else s.reg k := by
  obtain ⟨-, h⟩ := next_of_guarded h
  rw [eq_of_next h]
  exact getElem_loadedRegs s.v s.mem s.i.toNat x k

end Sys2Proof.Machine

open Sys2Proof Sys2Proof.Machine

/-- Settles O47: each copies one register, and `beep` is defined by `ST`. -/
theorem timerTransfers : Obligations.TimerTransfers := fun x s =>
  ⟨next_setReg_outcome s x, ⟨_, rfl, rfl, rfl, keeps_exec (i := .ldDtVx x) rfl⟩,
    _, rfl, rfl, decide_eq_true_iff, rfl, keeps_exec (i := .ldStVx x) rfl⟩

/-- Settles O48: a key is pressed, and the selected one is loaded, or none is, and only the sample is used up. -/
theorem keyWait : Obligations.KeyWait := by
  refine fun x s => ⟨fun hk => ?_, fun hk => ?_, fun _ _ => State.keys_of_cons, fun keys rnd hp hd =>
    ⟨fun hk => ?_, fun hk => tickWith_ldVxK_wait rnd hp hd ((anyPressed_eq_false_iff keys).2 hk)⟩⟩
  · have hany : anyPressed s.keys = true := (anyPressed_iff _).2 hk
    obtain ⟨hpressed, hlowest⟩ := keySelect_spec s.params.keySelect hany
    have hreg := State.reg_setReg_same s.takeKeys x (keyByte (keySelect s.params.keySelect s.keys))
    exact ⟨_, _, exec_ldVxK_next s x hany, hpressed, (congrArg BitVec.toNat hreg).trans (toNat_keyByte _), hlowest,
      rfl, rfl, keeps_exec (exec_ldVxK_next s x hany)⟩
  · exact ⟨_, exec_ldVxK_wait s x ((anyPressed_eq_false_iff _).2 hk), rfl, rfl,
      keeps_takeKeys s (List.mem_singleton_self _)⟩
  · have hany : anyPressed keys = true := (anyPressed_iff _).2 hk
    obtain ⟨hpressed, hlowest⟩ := keySelect_spec s.params.keySelect hany
    obtain ⟨hok, hreg⟩ := tickWith_ldVxK_pressed rnd hp hd hany
    exact ⟨_, hok, hpressed, (congrArg BitVec.toNat hreg).trans (toNat_keyByte _), hlowest⟩

/-- Settles O49: only `I` is written, with the sum mod 65536. -/
theorem addIResult : Obligations.AddIResult :=
  fun x s => ⟨_, rfl, toNat_sumIndex s.i (s.reg x), rfl, keeps_exec (i := .addIVx x) rfl⟩

/-- Settles O50: only `I` is written; the default parameters obey D4, with the font at 0 and sprites of 5 bytes. -/
theorem ldFPointsAtSprite : Obligations.LdFPointsAtSprite := by
  intro x s
  have haddr (hp : paramsWf s.params = true) : (fontAddress s.params (lowNibble (s.reg x))).toNat =
      s.params.fontBase.toNat + s.params.fontStride * ((s.reg x).toNat % 16) := by
    rw [toNat_fontAddress hp, val_lowNibble]
  refine ⟨_, rfl, rfl, keeps_exec (i := .ldFVx x) rfl, haddr, fun hdef => (haddr ?_).trans ?_⟩
  · rw [hdef]; decide
  · rw [hdef]; exact Nat.zero_add _

/-- Settles O51: the range check of three bytes fails, or their digits are stored. -/
theorem ldBStores : Obligations.LdBStores := by
  refine fun x s => ⟨fun hi => exec_ldBVx_fault s x ((rangeOk_succ_eq_false _ 2).2 hi), fun hi => ?_⟩
  have h := exec_ldBVx_next s x ((rangeOk_succ _ 2).2 hi)
  obtain ⟨hhundreds, htens, hones⟩ := read_of_exec_ldBVx h
  have hx := (s.reg x).isLt
  refine ⟨_, h, ?_, ?_, ?_, ?_, fun a ha => Memory.read_writeBytes_other s.mem ?_, rfl, keeps_exec h⟩
  · rw [hhundreds, htens, hones]; omega
  · rw [hhundreds]; omega
  · rw [htens]; omega
  · rw [hones]; omega
  · rw [length_bcdDigits]; omega

/-- Settles O52: the range check of `x + 1` bytes fails, or V0 to Vx are stored. -/
theorem ldMemStores : Obligations.LdMemStores := by
  refine fun x s => ⟨fun hi => exec_ldMemVx_fault s x ((rangeOk_succ_eq_false _ _).2 hi), fun hi => ?_⟩
  have h := exec_ldMemVx_next s x ((rangeOk_succ _ _).2 hi)
  refine ⟨_, h, fun k hk => read_of_exec_ldMemVx h hk, fun a ha => Memory.read_writeBytes_other s.mem ?_, rfl,
    keeps_exec h⟩
  rw [length_regsUpTo]
  omega

/-- Settles O53: the range check of `x + 1` bytes fails, or V0 to Vx are loaded. -/
theorem ldVxMemLoads : Obligations.LdVxMemLoads := by
  refine fun x s => ⟨fun hi => exec_ldVxMem_fault s x ((rangeOk_succ_eq_false _ _).2 hi), fun hi => ?_⟩
  have h := exec_ldVxMem_next s x ((rangeOk_succ _ _).2 hi)
  exact ⟨_, h, fun k hk => (reg_of_exec_ldVxMem h k).trans (if_pos hk),
    fun k hk => (reg_of_exec_ldVxMem h k).trans (if_neg hk.not_ge), rfl, keeps_exec h⟩

/-- Settles O54: `LD [I],Vx` passed the range check and left `I`, so `LD Vx,[I]` passes it and reads the same bytes. -/
theorem storeThenLoadRegisters : Obligations.StoreThenLoadRegisters := by
  intro x s t u hst hi hmem
  obtain ⟨hrange, -⟩ := next_of_guarded hst
  have hstored : Keeps [] [.mem] s t := keeps_exec hst
  have hui : u.i = s.i := hi.trans (hstored.index (by decide))
  have hload := exec_ldVxMem_next u x (hui ▸ hrange)
  refine ⟨_, hload, fun k hk => ?_⟩
  rw [reg_of_exec_ldVxMem hload, if_pos hk, hui, hmem k hk, read_of_exec_ldMemVx hst hk]
end

section
/-! SUPPORT. The host's operations along a run: what a `Tick` answers, by the step it makes, and each operation keeping
the invariant and the parameters. -/

namespace Sys2Proof.Machine

/-- The inputs a `Tick` is given, in place of those supplied for later steps (R100). -/
def State.setInputs (s : State) (ks : List Config.Keys) (rs : List Byte) : State :=
  { s with keyInputs := ks, rndInputs := rs }

theorem tickWith_eq (keys : Config.Keys) (rnd : Byte) (s : State) : tickWith keys rnd s =
    ((tick (s.setInputs [keys] [rnd])).1.setInputs s.keyInputs s.rndInputs, (tick (s.setInputs [keys] [rnd])).2) := rfl

/-- The state after a `Tick` is the one its step answers, or the one before it where the step answers none (R203). -/
theorem tick_cases (s : State) : step s = .next (tick s).1 ∨ (tick s).1 = s := by
  unfold tick
  split
  case h_1 t hs => exact .inl hs
  case h_2 | h_3 => exact .inr rfl

theorem tick_of_fault {s : State} {e : Fault} (h : step s = .fault e) : tick s = (s, .err e) := by
  rw [tick, h]

theorem tick_err_iff (s : State) (e : Fault) : (tick s).2 = .err e ↔ step s = .fault e := by
  refine ⟨fun h => ?_, fun h => by rw [tick_of_fault h]⟩
  unfold tick at h
  split at h
  case h_1 t hs => split at h <;> cases h
  case h_2 e' hs => cases h; exact hs
  case h_3 => cases h

theorem loadProgram_of_gt {bytes : List Byte} (s : State) (h : bytes.length > 3584) :
    loadProgram bytes s = (s, .err .programTooLarge) := if_pos h

theorem loadProgram_of_le {bytes : List Byte} (s : State) (h : bytes.length ≤ 3584) :
    loadProgram bytes s = (s.setMem (s.mem.writeBytes 0x200 bytes), .ok) := if_neg (Nat.not_lt.2 h)

/-- `LoadProgram` writes memory or, where it fails, nothing (R218, D29). -/
theorem keeps_loadProgram (bytes : List Byte) (s : State) : Keeps [] [.mem] s (loadProgram bytes s).1 := by
  by_cases hlen : bytes.length ≤ 3584
  · rw [loadProgram_of_le s hlen]; exact keeps_setMem s _ (List.mem_singleton_self _)
  · rw [loadProgram_of_gt s (Nat.not_le.1 hlen)]; exact Keeps.rfl' _ _ s

/-! ### The invariant along a run (R216) -/

theorem params_of_step {s t : State} (h : step s = .next t) : t.params = s.params := by
  obtain ⟨-, i, -, he⟩ := step_next_cases h
  exact (keeps_exec he).params

/-- The invariant says nothing of the inputs of the host. -/
theorem Inv.setInputs {s : State} (h : Inv s) (ks : List Config.Keys) (rs : List Byte) : Inv (s.setInputs ks rs) :=
  ⟨h.mem_wf, h.pc_le, h.stack_le, h.params_wf⟩

theorem Inv.tick {s : State} (h : Inv s) : Inv (tick s).1 := by
  obtain hs | hs := tick_cases s
  · exact stepKeepsInvariant s _ h hs
  · rwa [hs]

theorem tick_params (s : State) : (tick s).1.params = s.params := by
  obtain hs | hs := tick_cases s
  · exact params_of_step hs
  · rw [hs]

/-- A lawful `LOW_MEM_IMAGE` is a canonical memory (R10). -/
theorem lowMem_wf_of_paramsWf {p : Config.Params} (hp : paramsWf p = true) : Memory.wf p.lowMem = true := by
  simp only [paramsWf, Bool.and_eq_true] at hp
  obtain ⟨⟨-, hwf⟩, -⟩ := hp
  exact hwf

/-- `Reset` keeps the parameters, and with them the memory image they describe; the rest is `State.reset` (R230). -/
theorem Inv.resetStore {s : State} (h : Inv s) : Inv (resetStore s) where
  mem_wf := lowMem_wf_of_paramsWf h.params_wf
  pc_le := resetMeetsInvariant.pc_le
  stack_le := resetMeetsInvariant.stack_le
  params_wf := h.params_wf

/-- A program of at most 3584 bytes ends at address 4095 (R9, R218). -/
theorem Inv.loadProgram {s : State} (h : Inv s) (bytes : List Byte) : Inv (loadProgram bytes s).1 := by
  by_cases hlen : bytes.length ≤ 3584
  · rw [loadProgram_of_le s hlen]
    have hfit : 0x200 + bytes.length ≤ Config.memSize := by simp only [Config.memSize]; omega
    exact ⟨Memory.wf_writeBytes hfit h.mem_wf, h.pc_le, h.stack_le, h.params_wf⟩
  · rwa [loadProgram_of_gt s (Nat.not_le.1 hlen)]

theorem Inv.perform {s : State} (h : Inv s) (op : HostOp) : Inv (perform op s).1 := by
  cases op with
  | reset => exact h.resetStore
  | loadProgram bytes => exact h.loadProgram bytes
  | tick keys rnd => exact (h.setInputs [keys] [rnd]).tick.setInputs s.keyInputs s.rndInputs
  | timerTick => exact ⟨h.mem_wf, h.pc_le, h.stack_le, h.params_wf⟩

theorem perform_params (op : HostOp) (s : State) : (perform op s).1.params = s.params := by
  cases op with
  | reset | timerTick => rfl
  | loadProgram bytes => exact (keeps_loadProgram bytes s).params
  | tick keys rnd => exact tick_params (s.setInputs [keys] [rnd])

end Sys2Proof.Machine

open Sys2Proof.Machine

/-- Settles O18: each operation keeps both, so the list of them does. -/
theorem hostOperationsKeepInvariant : Obligations.HostOperationsKeepInvariant := fun ops s hi =>
  List.foldlRecOn (motive := fun t => Inv t ∧ t.params = s.params) ops _ ⟨hi, rfl⟩
    fun t ⟨ht, hp⟩ op _ => ⟨ht.perform op, (perform_params op t).trans hp⟩
end

section
/-! SUPPORT. Errors: which instructions raise one and why, and an error leaving the state, so that a retry meets it
again. -/

namespace Sys2Proof.Machine

variable {s : State} {e : Fault}

theorem exec_ret_fault_iff : exec .ret s = .fault e ↔ s.sp.val = 0 ∧ e = .stackUnderflow := by
  by_cases hs : s.sp.val = 0
  · rw [exec_ret_empty s hs]; simp [hs, eq_comm]
  · rw [exec_ret_next s (Nat.pos_of_ne_zero hs)]; simp [hs]

theorem exec_call_fault_iff {nnn : Addr} : exec (.call nnn) s = .fault e ↔ s.sp.val = 16 ∧ e = .stackOverflow := by
  by_cases hs : s.sp.val = 16
  · rw [exec_call_full s nnn hs]; simp [hs, eq_comm]
  · rw [exec_call_next s nnn (by omega)]; simp [hs]

/-- An access in memory raises its error exactly where its check fails (R56). -/
theorem guarded_fault_iff {c : Bool} {e' : Fault} {u : State} :
    (if c then next u else raise e') = .fault e ↔ c = false ∧ e = e' := by
  cases c <;> simp [eq_comm]

theorem exec_drw_fault_iff {x y : Reg} {n : Fin 16} : exec (.drw x y n) s = .fault e ↔
    n.val > 0 ∧ s.i.toNat + n.val - 1 > 4095 ∧ e = .outOfBoundsAddress := by
  rw [← and_assoc]
  exact guarded_fault_iff.trans (and_congr_left' (rangeOk_eq_false _ _))

/-- The error of an access to `k + 1` bytes from `I` on, the last of them at `I + k` (R56). -/
theorem guarded_range_fault_iff {k : Nat} {u : State} :
    (if rangeOk s.i.toNat (k + 1) then next u else raise .outOfBoundsAddress) = .fault e ↔
      s.i.toNat + k > 4095 ∧ e = .outOfBoundsAddress :=
  guarded_fault_iff.trans (and_congr_left' (rangeOk_succ_eq_false _ k))

theorem next_fault_iff_false {t : State} : (.next t : Out) = .fault e ↔ False := iff_of_false nofun id

end Sys2Proof.Machine

open Sys2Proof Sys2Proof.Machine

/-- Settles O9: no fetch, an unknown opcode, or an instruction whose own check fails. -/
theorem stepErrorsExactly : Obligations.StepErrorsExactly := by
  intro s e
  by_cases hp : s.pc.toNat ≤ 4094
  · rw [or_iff_right (fun h => absurd hp (Nat.not_le.2 h.1)), and_iff_right hp]
    cases hd : decode s.params.strictXY0 (s.mem.read s.pc.toNat ++ s.mem.read (s.pc.toNat + 1)) with
    | unknown raw =>
      rw [step_of_unknown hp hd, Host.Outcome.fault.injEq]
      exact eq_comm
    | instr i =>
      rw [step_of_instr hp hd]
      cases i with
      | ret => exact exec_ret_fault_iff
      | call nnn => exact exec_call_fault_iff
      | drw x y n => exact exec_drw_fault_iff
      | ldBVx | ldMemVx | ldVxMem => exact guarded_range_fault_iff
      | _ => exact next_fault_iff_false
  · rw [or_iff_left (fun h => hp h.1), and_iff_right (Nat.not_le.1 hp), step_of_gt (Nat.not_le.1 hp),
      Host.Outcome.fault.injEq]
    exact eq_comm

namespace Sys2Proof.Machine

variable {s : State} {e : Fault}

/-- No cause of an error lies in the inputs of the host (R205). -/
theorem step_setInputs_fault_iff (ks : List Config.Keys) (rs : List Byte) :
    step (s.setInputs ks rs) = .fault e ↔ step s = .fault e :=
  (stepErrorsExactly (s.setInputs ks rs) e).trans (stepErrorsExactly s e).symm

theorem tickWith_err_iff (keys : Config.Keys) (rnd : Byte) : (tickWith keys rnd s).2 = .err e ↔ step s = .fault e :=
  (tick_err_iff _ e).trans (step_setInputs_fault_iff [keys] [rnd])

/-- A `Tick` whose step fails changes nothing and answers the error, whatever its inputs are (R203). -/
theorem tickWith_of_fault (keys : Config.Keys) (rnd : Byte) (h : step s = .fault e) :
    tickWith keys rnd s = (s, .err e) := by
  rw [tickWith_eq, tick_of_fault ((step_setInputs_fault_iff _ _).2 h)]
  rfl

end Sys2Proof.Machine

/-- Settles O12: only a `LoadProgram` that is too long and a `Tick` whose step fails return an error. -/
theorem errorLeavesStateUnchanged : Obligations.ErrorLeavesStateUnchanged := by
  intro op s e h
  cases op with
  | reset | timerTick => cases h
  | loadProgram bytes =>
    by_cases hlen : bytes.length ≤ 3584
    · rw [perform, loadProgram_of_le s hlen] at h; cases h
    · rw [perform, loadProgram_of_gt s (Nat.not_le.1 hlen)]
  | tick keys rnd => rw [perform, tickWith_of_fault keys rnd ((tickWith_err_iff keys rnd).1 h)]

/-- Settles O13: the state is unchanged, and its step fails whatever the inputs are. -/
theorem retryFailsAgain : Obligations.RetryFailsAgain := by
  intro keys keys' rnd rnd' s e h
  have hs : step s = .fault e := (tickWith_err_iff keys rnd).1 h
  rw [tickWith_of_fault keys rnd hs]
  exact tickWith_of_fault keys' rnd' hs
end

section
/-! SUPPORT. The host's other operations: the timers after any number of `TimerTick`s, a loaded program in memory, and
the beep signal as a function of `ST`. -/

namespace Sys2Proof.Machine

theorem keeps_timerTick (s : State) : Keeps [] [.dt, .st] s (timerTick s) :=
  (keeps_setDt s _ (by decide)).trans (keeps_setSt _ _ (by decide))

/-- After `n` of them each timer has lost `n`, floored at 0 (R217). -/
theorem toNat_timers_of_timerTicks (n : Nat) (s : State) :
    (performAll (List.replicate n .timerTick) s).dt.toNat = s.dt.toNat - n ∧
    (performAll (List.replicate n .timerTick) s).st.toNat = s.st.toNat - n := by
  induction n generalizing s with
  | zero => exact ⟨rfl, rfl⟩
  | succ n ih =>
    obtain ⟨hdt, hst⟩ := ih (timerTick s)
    have hdt1 : (timerTick s).dt.toNat = s.dt.toNat - 1 := toNat_countDown _
    have hst1 : (timerTick s).st.toNat = s.st.toNat - 1 := toNat_countDown _
    rw [List.replicate_succ, performAll, List.foldl_cons]
    exact ⟨hdt.trans (by omega), hst.trans (by omega)⟩

theorem beep_congr {s t : State} (h : t.st = s.st) : beep t = beep s := by rw [beep, beep, h]

end Sys2Proof.Machine

open Sys2Proof Sys2Proof.Machine

/-- Settles O55: each timer is `countDown` of what it was; the timer instructions are those of `timerRegisterRules`. -/
theorem timerTickCountsDown : Obligations.TimerTickCountsDown := by
  obtain ⟨hinstr, -⟩ := timerRegisterRules
  refine ⟨fun s => ⟨rfl, ?_, fun n => ?_⟩, fun _ => ⟨rfl, rfl⟩, hinstr⟩
  · rintro t rfl
    exact ⟨toNat_countDown _, toNat_countDown _, rfl, keeps_timerTick s⟩
  · obtain ⟨hdt, hst⟩ := toNat_timers_of_timerTicks n s
    rw [hdt, hst]
    exact ⟨Nat.sub_eq_zero_iff_le, Nat.sub_eq_zero_iff_le⟩

/-- Settles O56: the program is too long, or its bytes are stored from 0x200 on. -/
theorem loadProgramCopies : Obligations.LoadProgramCopies := by
  refine fun bytes s => ⟨loadProgram_of_gt s, fun hlen => ?_⟩
  refine ⟨_, loadProgram_of_le s hlen, fun k hk => ?_, fun a ha => Memory.read_writeBytes_other s.mem ha, rfl,
    keeps_setMem s _ (List.mem_singleton_self _)⟩
  rw [State.setMem_mem, Memory.read_writeBytes_add s.mem 0x200 hk, List.getD_eq_getElem _ _ hk]

/-- Settles O57: `beep` reads `ST` alone, which among the instructions only `LD ST,Vx` writes. -/
theorem beepFollowsSoundTimer : Obligations.BeepFollowsSoundTimer := by
  obtain ⟨-, hwrites, -, -, -, hbeep⟩ := timerRegisterRules
  refine ⟨hbeep, fun i s t h hne => ?_, fun bytes s => beep_congr ((keeps_loadProgram bytes s).st (by decide))⟩
  by_contra hno
  obtain ⟨-, hst⟩ := hwrites i s t h
  exact hne (beep_congr (hst (not_exists.1 hno)))
end

section
/-! SUPPORT. The run over zeroed memory as one state, and zeroed memory from reset on. -/

namespace Sys2Proof.Machine

/-- `ZeroedMemoryRun` says what such a run keeps; this says which state it ends in (R122). -/
theorem run_over_zeros {s : State} {k : Nat} (hk : s.pc.toNat + 2 * k ≤ 4096)
    (hz : ∀ a, s.pc.toNat ≤ a → a < s.pc.toNat + 2 * k → s.mem.read a = 0#8) :
    Sys2Proof.core.run k s = .next (s.setPc (s.pc + BitVec.ofNat 16 (2 * k))) := by
  induction k generalizing s with
  | zero => exact congrArg (fun w => (.next (s.setPc w) : Out)) (BitVec.add_zero s.pc).symm
  | succ k ih =>
    have hp : s.pc.toNat ≤ 4094 := by omega
    have hstep := step_of_zero hp (hz _ (by omega) (by omega)) (hz _ (by omega) (by omega))
    have hpc : (s.setPc (s.pc + 2)).pc.toNat = s.pc.toNat + 2 := toNat_pc_of_next hp rfl rfl
    have hrun := ih (s := s.setPc (s.pc + 2)) (by omega) fun a hlo hhi => hz a (by omega) (by omega)
    have hsum : s.pc + 2 + BitVec.ofNat 16 (2 * k) = s.pc + BitVec.ofNat 16 (2 * (k + 1)) := by
      rw [BitVec.add_assoc, Nat.mul_succ, Nat.add_comm (2 * k), BitVec.ofNat_add]
      rfl
    rw [run_succ_of_next k hstep, hrun, ← hsum]
    rfl

/-- After reset memory is 0 from `pc` on (R42, R232). -/
theorem reset_mem_read_of_pc_le {a : Nat} (h : State.reset.pc.toNat ≤ a) : State.reset.mem.read a = 0#8 :=
  Memory.unlisted_of_ge (le_trans (by decide) h)

end Sys2Proof.Machine

open Sys2Proof.Machine

/-- Settles O19: memory is 0 from `pc` = 0x200 on, so every step until `pc` = 4096 is a `SYS 0`. -/
theorem emptyMemoryRun : Obligations.EmptyMemoryRun := by
  have hpc : State.reset.pc.toNat = 0x200 := rfl
  refine ⟨fun k hk => ?_, ?_⟩
  · rw [run_over_zeros (by omega) fun a ha _ => reset_mem_read_of_pc_le ha, BitVec.ofNat_add]
    rfl
  · obtain ⟨-, -, -, -, hend⟩ := zeroedMemoryRun State.reset 1792 (by omega) fun a ha _ => reset_mem_read_of_pc_le ha
    exact hend (by omega)
end
